-- ==== Sys2Proof/Word.lean ====
section
/-! DEFINITION. The word types of the CHIP-8 block (spec 00_scope.md R7, R10: every register and memory value is
unsigned). Arithmetic on them wraps, as R10's `trunc_N` says. -/

namespace Sys2Proof

/-- A byte: a V register, a timer, a memory or display cell (R20, R27, R36, R33). -/
abbrev Byte := BitVec 8

/-- A 16-bit value: `I`, `PC`, a stack entry, an instruction word (R26, R23, R32, R80). -/
abbrev Word := BitVec 16

/-- The literal address field `nnn` (R81). -/
abbrev Addr := BitVec 12

/-- The index of a general register, `V[0]` to `V[15]` (R20). -/
abbrev Reg := Fin 16

/-- `VF`, the implicit flags register (R22). -/
abbrev VF : Reg := 15

end Sys2Proof
end

