-- ==== Sys2Proof/Syntax.lean ====
section
/-! DEFINITION. The instructions: one constructor per row of spec/opcode_table.json (30_encoding.md R84), with the
operands of its format (R82). `x` and `y` are register indexes, `kk` the literal byte, `nnn` the literal address, `n`
the row count of a draw (R83). SHR and SHL carry the `y` field although they do not use it (R82), so that no bit of a
word is lost by decoding. -/

namespace Sys2Proof

inductive Instr where
  /-- `00E0` CLS (R171). -/
  | cls
  /-- `00EE` RET (R111). -/
  | ret
  /-- `1nnn` JP addr (R112). -/
  | jp (nnn : Addr)
  /-- `2nnn` CALL addr (R113). -/
  | call (nnn : Addr)
  /-- `3xkk` SE Vx, byte (R114). -/
  | seImm (x : Reg) (kk : Byte)
  /-- `4xkk` SNE Vx, byte (R115). -/
  | sneImm (x : Reg) (kk : Byte)
  /-- `5xy0` SE Vx, Vy (R116). -/
  | seReg (x y : Reg)
  /-- `6xkk` LD Vx, byte (R141). -/
  | ldImm (x : Reg) (kk : Byte)
  /-- `7xkk` ADD Vx, byte (R142). -/
  | addImm (x : Reg) (kk : Byte)
  /-- `8xy0` LD Vx, Vy (R143). -/
  | ldReg (x y : Reg)
  /-- `8xy1` OR Vx, Vy (R144). -/
  | orReg (x y : Reg)
  /-- `8xy2` AND Vx, Vy (R145). -/
  | andReg (x y : Reg)
  /-- `8xy3` XOR Vx, Vy (R146). -/
  | xorReg (x y : Reg)
  /-- `8xy4` ADD Vx, Vy (R147). -/
  | addReg (x y : Reg)
  /-- `8xy5` SUB Vx, Vy (R148). -/
  | sub (x y : Reg)
  /-- `8xy6` SHR Vx; `y` is encoded but not used (R149). -/
  | shr (x y : Reg)
  /-- `8xy7` SUBN Vx, Vy (R150). -/
  | subn (x y : Reg)
  /-- `8xyE` SHL Vx; `y` is encoded but not used (R151). -/
  | shl (x y : Reg)
  /-- `9xy0` SNE Vx, Vy (R117). -/
  | sneReg (x y : Reg)
  /-- `Annn` LD I, addr (R220). -/
  | ldI (nnn : Addr)
  /-- `Bnnn` JP V0, addr (R118). -/
  | jpV0 (nnn : Addr)
  /-- `Cxkk` RND Vx, byte (R153). -/
  | rnd (x : Reg) (kk : Byte)
  /-- `Dxyn` DRW Vx, Vy, nibble (R174). -/
  | drw (x y : Reg) (n : Nat)
  /-- `Ex9E` SKP Vx (R192). -/
  | skp (x : Reg)
  /-- `ExA1` SKNP Vx (R193). -/
  | sknp (x : Reg)
  /-- `Fx07` LD Vx, DT (R194). -/
  | ldVxDT (x : Reg)
  /-- `Fx0A` LD Vx, K (R197). -/
  | ldVxK (x : Reg)
  /-- `Fx15` LD DT, Vx (R195). -/
  | ldDTVx (x : Reg)
  /-- `Fx18` LD ST, Vx (R196). -/
  | ldSTVx (x : Reg)
  /-- `Fx1E` ADD I, Vx (R222). -/
  | addI (x : Reg)
  /-- `Fx29` LD F, Vx (R223). -/
  | ldF (x : Reg)
  /-- `Fx33` LD B, Vx (R224). -/
  | ldB (x : Reg)
  /-- `Fx55` LD [I], Vx (R225). -/
  | ldMemVx (x : Reg)
  /-- `Fx65` LD Vx, [I] (R226). -/
  | ldVxMem (x : Reg)
  deriving DecidableEq, Repr

end Sys2Proof
end

