-- ==== Sys2Proof/Decode.lean ====
section
/-! DEFINITION. The decoder (30_encoding.md R80 to R93), total on any bytes and rejecting by name; the encoder, written
from the same encodings; and the opcode table of R84 as rows of match, mask and operands. -/

namespace Sys2Proof

/-- Why bytes are no instruction. `invalidOpcode`: the word matches no row of the opcode table (R88); the step then
records the InvalidOpcode condition, which is what the block does, so this is safe. `truncated`: fewer than two bytes
were given, which a fetch never does (R80). -/
inductive Reject where
  | invalidOpcode
  | truncated
  deriving DecidableEq, Repr

/-- `w[15:12]`, the instruction family (R81). -/
def fieldOp (w : Word) : BitVec 4 := w.extractLsb' 12 4

/-- `w[11:8]`, a register index (R81). -/
def fieldX (w : Word) : Reg := (w.extractLsb' 8 4).toFin

/-- `w[7:4]`, a register index (R81). -/
def fieldY (w : Word) : Reg := (w.extractLsb' 4 4).toFin

/-- `w[3:0]`, the literal nibble as the sub-opcode it is in families 0x5, 0x8 and 0x9 (R81, R85). -/
def fieldN (w : Word) : BitVec 4 := w.extractLsb' 0 4

/-- `w[7:0]`, the literal byte (R81). -/
def fieldKK (w : Word) : Byte := w.extractLsb' 0 8

/-- `w[11:0]`, the literal address (R81). -/
def fieldNNN (w : Word) : Addr := w.extractLsb' 0 12

/-- Family 0x0: the whole word is fixed (R87). -/
def decodeFamily0 (w : Word) : Except Reject Instr :=
  match fieldNNN w with
  | 0x0E0#12 => .ok .cls
  | 0x0EE#12 => .ok .ret
  | _ => .error .invalidOpcode

/-- Family 0x8, refined by `n` (R85); the sub-opcodes are those of R84. -/
def decodeFamily8 (w : Word) : Except Reject Instr :=
  match fieldN w with
  | 0x0#4 => .ok (.ldReg (fieldX w) (fieldY w))
  | 0x1#4 => .ok (.orReg (fieldX w) (fieldY w))
  | 0x2#4 => .ok (.andReg (fieldX w) (fieldY w))
  | 0x3#4 => .ok (.xorReg (fieldX w) (fieldY w))
  | 0x4#4 => .ok (.addReg (fieldX w) (fieldY w))
  | 0x5#4 => .ok (.sub (fieldX w) (fieldY w))
  | 0x6#4 => .ok (.shr (fieldX w) (fieldY w))
  | 0x7#4 => .ok (.subn (fieldX w) (fieldY w))
  | 0xE#4 => .ok (.shl (fieldX w) (fieldY w))
  | _ => .error .invalidOpcode

/-- Family 0xE, refined by `kk` (R85). -/
def decodeFamilyE (w : Word) : Except Reject Instr :=
  match fieldKK w with
  | 0x9E#8 => .ok (.skp (fieldX w))
  | 0xA1#8 => .ok (.sknp (fieldX w))
  | _ => .error .invalidOpcode

/-- Family 0xF, refined by `kk` (R85). -/
def decodeFamilyF (w : Word) : Except Reject Instr :=
  match fieldKK w with
  | 0x07#8 => .ok (.ldVxDT (fieldX w))
  | 0x0A#8 => .ok (.ldVxK (fieldX w))
  | 0x15#8 => .ok (.ldDTVx (fieldX w))
  | 0x18#8 => .ok (.ldSTVx (fieldX w))
  | 0x1E#8 => .ok (.addI (fieldX w))
  | 0x29#8 => .ok (.ldF (fieldX w))
  | 0x33#8 => .ok (.ldB (fieldX w))
  | 0x55#8 => .ok (.ldMemVx (fieldX w))
  | 0x65#8 => .ok (.ldVxMem (fieldX w))
  | _ => .error .invalidOpcode

/-- `Decode(w)` (R92): the dispatch on `op` (R85), every fixed nibble checked (R87). -/
def decodeWord (w : Word) : Except Reject Instr :=
  match fieldOp w with
  | 0x0#4 => decodeFamily0 w
  | 0x1#4 => .ok (.jp (fieldNNN w))
  | 0x2#4 => .ok (.call (fieldNNN w))
  | 0x3#4 => .ok (.seImm (fieldX w) (fieldKK w))
  | 0x4#4 => .ok (.sneImm (fieldX w) (fieldKK w))
  | 0x5#4 => if fieldN w = 0x0#4 then .ok (.seReg (fieldX w) (fieldY w)) else .error .invalidOpcode
  | 0x6#4 => .ok (.ldImm (fieldX w) (fieldKK w))
  | 0x7#4 => .ok (.addImm (fieldX w) (fieldKK w))
  | 0x8#4 => decodeFamily8 w
  | 0x9#4 => if fieldN w = 0x0#4 then .ok (.sneReg (fieldX w) (fieldY w)) else .error .invalidOpcode
  | 0xA#4 => .ok (.ldI (fieldNNN w))
  | 0xB#4 => .ok (.jpV0 (fieldNNN w))
  | 0xC#4 => .ok (.rnd (fieldX w) (fieldKK w))
  | 0xD#4 => .ok (.drw (fieldX w) (fieldY w) (fieldN w).toNat)
  | 0xE#4 => decodeFamilyE w
  | _ => decodeFamilyF w

/-- The decoder on bytes: two bytes, the high byte first (R61, R80), and the bytes left over. -/
def decode : List Byte → Except Reject (Instr × List Byte)
  | hi :: lo :: rest =>
    match decodeWord (hi ++ lo) with
    | .ok i => .ok (i, rest)
    | .error e => .error e
  | _ => .error .truncated

/-- What the decoder reads from a table word of `nbits` bits: its bits above `nbits` are 0, the word is laid out as the
block stores it, high byte first. -/
def decodeTableWord (nbits w : Nat) : Option Instr :=
  let v := w % 2 ^ nbits
  match decode [BitVec.ofNat 8 (v / 256), BitVec.ofNat 8 v] with
  | .ok (i, _) => some i
  | .error _ => none

/-- A register index as its nibble. -/
def nib (r : Reg) : BitVec 4 := BitVec.ofFin r

/-- Format A, `op : nnn` (R82). -/
def wordA (op : BitVec 4) (nnn : Addr) : Word := op ++ nnn

/-- Formats XK and X, `op : x : kk` (R82). -/
def wordXK (op : BitVec 4) (x : Reg) (kk : Byte) : Word := (op ++ nib x) ++ kk

/-- Formats XY and XYN, `op : x : y : n` (R82). -/
def wordXYN (op : BitVec 4) (x y : Reg) (n : BitVec 4) : Word := ((op ++ nib x) ++ nib y) ++ n

/-- The word of an instruction, from the encodings of R82 and R84. -/
def encode : Instr → Word
  | .cls => 0x00E0#16
  | .ret => 0x00EE#16
  | .jp nnn => wordA 0x1#4 nnn
  | .call nnn => wordA 0x2#4 nnn
  | .seImm x kk => wordXK 0x3#4 x kk
  | .sneImm x kk => wordXK 0x4#4 x kk
  | .seReg x y => wordXYN 0x5#4 x y 0x0#4
  | .ldImm x kk => wordXK 0x6#4 x kk
  | .addImm x kk => wordXK 0x7#4 x kk
  | .ldReg x y => wordXYN 0x8#4 x y 0x0#4
  | .orReg x y => wordXYN 0x8#4 x y 0x1#4
  | .andReg x y => wordXYN 0x8#4 x y 0x2#4
  | .xorReg x y => wordXYN 0x8#4 x y 0x3#4
  | .addReg x y => wordXYN 0x8#4 x y 0x4#4
  | .sub x y => wordXYN 0x8#4 x y 0x5#4
  | .shr x y => wordXYN 0x8#4 x y 0x6#4
  | .subn x y => wordXYN 0x8#4 x y 0x7#4
  | .shl x y => wordXYN 0x8#4 x y 0xE#4
  | .sneReg x y => wordXYN 0x9#4 x y 0x0#4
  | .ldI nnn => wordA 0xA#4 nnn
  | .jpV0 nnn => wordA 0xB#4 nnn
  | .rnd x kk => wordXK 0xC#4 x kk
  | .drw x y n => wordXYN 0xD#4 x y (BitVec.ofNat 4 n)
  | .skp x => wordXK 0xE#4 x 0x9E#8
  | .sknp x => wordXK 0xE#4 x 0xA1#8
  | .ldVxDT x => wordXK 0xF#4 x 0x07#8
  | .ldVxK x => wordXK 0xF#4 x 0x0A#8
  | .ldDTVx x => wordXK 0xF#4 x 0x15#8
  | .ldSTVx x => wordXK 0xF#4 x 0x18#8
  | .addI x => wordXK 0xF#4 x 0x1E#8
  | .ldF x => wordXK 0xF#4 x 0x29#8
  | .ldB x => wordXK 0xF#4 x 0x33#8
  | .ldMemVx x => wordXK 0xF#4 x 0x55#8
  | .ldVxMem x => wordXK 0xF#4 x 0x65#8

/-- The two bytes of an instruction in memory order, high byte first (R61, R80). -/
def encodeBytes (i : Instr) : List Byte := [(encode i).extractLsb' 8 8, (encode i).extractLsb' 0 8]

/-- One row of the opcode table (R84): a word `w` is the instruction when `w & mask = match`, and its operands are the
fields of the row's format taken from `w`. -/
structure Row where
  pattern : Word
  mask : Word
  operands : Word → Instr

/-- `w & mask = match` (R84). -/
def Row.matchesWord (r : Row) (w : Word) : Bool := w &&& r.mask == r.pattern

/-- Families 0x0 to 0x7 of R84's table. -/
def opcodeRowsLow : List Row :=
  [⟨0x00E0, 0xFFFF, fun _ => .cls⟩,
   ⟨0x00EE, 0xFFFF, fun _ => .ret⟩,
   ⟨0x1000, 0xF000, fun w => .jp (fieldNNN w)⟩,
   ⟨0x2000, 0xF000, fun w => .call (fieldNNN w)⟩,
   ⟨0x3000, 0xF000, fun w => .seImm (fieldX w) (fieldKK w)⟩,
   ⟨0x4000, 0xF000, fun w => .sneImm (fieldX w) (fieldKK w)⟩,
   ⟨0x5000, 0xF00F, fun w => .seReg (fieldX w) (fieldY w)⟩,
   ⟨0x6000, 0xF000, fun w => .ldImm (fieldX w) (fieldKK w)⟩,
   ⟨0x7000, 0xF000, fun w => .addImm (fieldX w) (fieldKK w)⟩]

/-- Family 0x8 of R84's table. -/
def opcodeRowsAlu : List Row :=
  [⟨0x8000, 0xF00F, fun w => .ldReg (fieldX w) (fieldY w)⟩,
   ⟨0x8001, 0xF00F, fun w => .orReg (fieldX w) (fieldY w)⟩,
   ⟨0x8002, 0xF00F, fun w => .andReg (fieldX w) (fieldY w)⟩,
   ⟨0x8003, 0xF00F, fun w => .xorReg (fieldX w) (fieldY w)⟩,
   ⟨0x8004, 0xF00F, fun w => .addReg (fieldX w) (fieldY w)⟩,
   ⟨0x8005, 0xF00F, fun w => .sub (fieldX w) (fieldY w)⟩,
   ⟨0x8006, 0xF00F, fun w => .shr (fieldX w) (fieldY w)⟩,
   ⟨0x8007, 0xF00F, fun w => .subn (fieldX w) (fieldY w)⟩,
   ⟨0x800E, 0xF00F, fun w => .shl (fieldX w) (fieldY w)⟩]

/-- Families 0x9 to 0xE of R84's table. -/
def opcodeRowsHigh : List Row :=
  [⟨0x9000, 0xF00F, fun w => .sneReg (fieldX w) (fieldY w)⟩,
   ⟨0xA000, 0xF000, fun w => .ldI (fieldNNN w)⟩,
   ⟨0xB000, 0xF000, fun w => .jpV0 (fieldNNN w)⟩,
   ⟨0xC000, 0xF000, fun w => .rnd (fieldX w) (fieldKK w)⟩,
   ⟨0xD000, 0xF000, fun w => .drw (fieldX w) (fieldY w) (fieldN w).toNat⟩,
   ⟨0xE09E, 0xF0FF, fun w => .skp (fieldX w)⟩,
   ⟨0xE0A1, 0xF0FF, fun w => .sknp (fieldX w)⟩]

/-- Family 0xF of R84's table. -/
def opcodeRowsF : List Row :=
  [⟨0xF007, 0xF0FF, fun w => .ldVxDT (fieldX w)⟩,
   ⟨0xF00A, 0xF0FF, fun w => .ldVxK (fieldX w)⟩,
   ⟨0xF015, 0xF0FF, fun w => .ldDTVx (fieldX w)⟩,
   ⟨0xF018, 0xF0FF, fun w => .ldSTVx (fieldX w)⟩,
   ⟨0xF01E, 0xF0FF, fun w => .addI (fieldX w)⟩,
   ⟨0xF029, 0xF0FF, fun w => .ldF (fieldX w)⟩,
   ⟨0xF033, 0xF0FF, fun w => .ldB (fieldX w)⟩,
   ⟨0xF055, 0xF0FF, fun w => .ldMemVx (fieldX w)⟩,
   ⟨0xF065, 0xF0FF, fun w => .ldVxMem (fieldX w)⟩]

/-- The opcode table of R84, 34 rows. -/
def opcodeTable : List Row := opcodeRowsLow ++ opcodeRowsAlu ++ opcodeRowsHigh ++ opcodeRowsF

end Sys2Proof
end

