-- ==== Sys2Proof/Config.lean ====
section
/-! DEFINITION. What an implementation fixes, and the free value (00_scope.md R8). -/

namespace Sys2Proof

/-- When the timers count (R206, R207). -/
inductive TimerPolicy where
  | perStep
  | tick60
  deriving DecidableEq, Repr

/-- What a memory access above 0xFFF does (R64). -/
inductive MemOob where
  | wrap
  | fault
  deriving DecidableEq, Repr

/-- What Ex9E and ExA1 do when `V[x] > 0xF` (R191). -/
inductive KeyOob where
  | mask
  | fault
  deriving DecidableEq, Repr

/-- The named parameters of R8. -/
structure Config where
  timerPolicy : TimerPolicy
  memOob : MemOob
  keyOob : KeyOob
  font : Vector Byte 80
  deriving DecidableEq, Repr

/-- FREE VALUE: the byte `rnd` of the STEP numbered `k`, where the host's byte is not listed in the state. It has no
body: R44, R153 and D15 give it no law, so a claim holds for every byte. -/
opaque Config.randomByte : Nat → Byte

end Sys2Proof
end

