-- ==== Sys2Proof/Machine/Params.lean ====
section
/-! DEFINITION. This hardware's values of the parameters of 00_scope.md R8. -/

namespace Sys2Proof.Machine

/-- A glyph: five bytes, one row each (R31). -/
def glyph (a b c d e : Byte) : Vector Byte 5 := #v[a, b, c, d, e]

/-- Glyphs 0 to 7 of R31's default table. PRESUMED: the spec takes these bytes from general knowledge (D16). -/
def fontLow : Vector Byte 40 :=
  glyph 0xF0 0x90 0x90 0x90 0xF0 ++ glyph 0x20 0x60 0x20 0x20 0x70 ++
  glyph 0xF0 0x10 0xF0 0x80 0xF0 ++ glyph 0xF0 0x10 0xF0 0x10 0xF0 ++
  glyph 0x90 0x90 0xF0 0x10 0x10 ++ glyph 0xF0 0x80 0xF0 0x10 0xF0 ++
  glyph 0xF0 0x80 0xF0 0x90 0xF0 ++ glyph 0xF0 0x10 0x20 0x40 0x40

/-- Glyphs 8 to F of R31's default table. -/
def fontHigh : Vector Byte 40 :=
  glyph 0xF0 0x90 0xF0 0x90 0xF0 ++ glyph 0xF0 0x90 0xF0 0x10 0xF0 ++
  glyph 0xF0 0x90 0xF0 0x90 0x90 ++ glyph 0xE0 0x90 0xE0 0x90 0xE0 ++
  glyph 0xF0 0x80 0x80 0x80 0xF0 ++ glyph 0xE0 0x90 0x90 0x90 0xE0 ++
  glyph 0xF0 0x80 0xF0 0x80 0xF0 ++ glyph 0xF0 0x80 0xF0 0x80 0x80

/-- The default `FONT` of R31: glyph d at `5 * d`. -/
def defaultFont : Vector Byte 80 := fontLow ++ fontHigh

/-- This hardware's parameters: the defaults of R8. -/
def hardware : Config :=
  { timerPolicy := .perStep, memOob := .wrap, keyOob := .mask, font := defaultFont }

/-- The address of the first instruction, the program base (R66, R7). -/
def programBase : Nat := 0x200

end Sys2Proof.Machine
end

