-- ==== Sys2Proof/Machine/State.lean ====
section
/-! DEFINITION. The state of the block (10_state.md), the reasons a step can stop, and the state after reset (R51). -/

namespace Sys2Proof.Machine

/-- The listed bytes of memory, over the reset contents (R36, R51): addresses strictly rising, no entry equal to what an
unlisted address reads as (`Memory.wf`). -/
abbrev Memory := List Host.Cell

/-- The display buffer, 256 bytes, row-major, 8 bytes a row, the most significant bit leftmost (R33, R34). -/
abbrev Display := Vector Byte 256

/-- The conditions a step can record in `fault` (R251); their codes are `FaultCode.code`. Recording one is no stop of the
model: the step goes on to a next state (R95, R253). -/
inductive FaultCode where
  | invalidOpcode
  | stackOverflow
  | stackUnderflow
  | addressRange
  | keyIndexRange
  deriving DecidableEq, Repr

/-- Why the model stops. -/
inductive Fault where
  /-- Raised by CALL and RET in a state whose SP is 17 to 31: the stack entry they would reach, `S[SP]` or `S[SP - 1]`, does
  not exist (R32), and R28 says such an SP is never reached. Safe: the model stops; no run from reset gets there. -/
  | stackIndexRange
  deriving DecidableEq, Repr

/-- Why the model answers no state. -/
inductive Refusal where
  /-- Raised by an arm of `exec` whose instruction has no meaning yet (none is left). Safe. -/
  | notModelled (mnemonic : String)
  /-- Raised by the host operation TICK under TIMER_POLICY = per_step, where it is not an operation of the block and a
  model refuses it (R207). Safe. -/
  | tickUnderPerStep
  deriving DecidableEq, Repr

/-- The whole state (R38), and three fields of the model's own: `cfg`, `rndIn` and `draws`. -/
structure State where
  /-- `V[0..15]` (R20). -/
  v : Vector Byte 16
  /-- The address register (R26). -/
  I : Word
  /-- The program counter (R23). -/
  pc : Word
  /-- The number of occupied stack entries (R28). -/
  sp : BitVec 5
  /-- `S[0..15]` (R32). -/
  stack : Vector Word 16
  /-- The delay timer (R27). -/
  dt : Byte
  /-- The sound timer (R27). -/
  st : Byte
  /-- `M[0x000..0xFFF]` (R36). -/
  mem : Memory
  /-- `Disp[0..255]` (R33). -/
  disp : Display
  /-- The key latch, bit k is `K[k]` (R35, R45). -/
  keys : BitVec 16
  /-- The draw flag (R29). -/
  dirty : Bool
  /-- The last step was a waiting Fx0A (R30). -/
  keyWait : Bool
  /-- The first condition recorded since RESET or LOAD, 0 if none (R39). -/
  fault : BitVec 3
  /-- The model's own: the parameters of R8, which no operation writes. -/
  cfg : Config
  /-- The model's own: the host's bytes `rnd` for the coming STEPs, oldest first (R44). -/
  rndIn : List Byte
  /-- The model's own: how many STEPs have run; indexes the free value where `rndIn` lists no byte. -/
  draws : Nat
  deriving DecidableEq, Repr

/-- The outcome of a step of this machine. -/
abbrev Outcome := Host.Outcome State Fault Refusal

/-- The state after RESET, and at power-on (R51, R280, R281). Memory lists nothing: an unlisted address reads as R51 says
it does after reset. DESIGN CHOICE (log entry 4): `rndIn` empty, `draws` 0. -/
def State.reset : State :=
  { v := Vector.replicate 16 0
    I := 0
    pc := 0x200
    sp := 0
    stack := Vector.replicate 16 0
    dt := 0
    st := 0
    mem := []
    disp := Vector.replicate 256 0
    keys := 0
    dirty := false
    keyWait := false
    fault := 0
    cfg := hardware
    rndIn := []
    draws := 0 }

end Sys2Proof.Machine
end

