-- ==== Sys2Proof/Machine/Flags.lean ====
section
/-! DEFINITION. Every flag computation of the block. VF is the only flag and holds 0 or 1 when written as one
(10_state.md R37). -/

namespace Sys2Proof.Machine

/-- A flag as the byte written to VF. -/
def flagByte (b : Bool) : Byte := if b then 1 else 0

/-- 8xy4: 1 iff the 9-bit sum exceeds 255 (R147). -/
def carryFlag (a b : Byte) : Byte := flagByte (decide (a.toNat + b.toNat > 255))

/-- 8xy5, and 8xy7 with its operands reversed: 1 iff `a > b` strictly (R148, R150). -/
def notBorrowFlag (a b : Byte) : Byte := flagByte (decide (a.toNat > b.toNat))

/-- 8xy6: the bit shifted out to the right (R149). -/
def shiftedOutRight (a : Byte) : Byte := a &&& 1

/-- 8xyE: the bit shifted out to the left (R151). -/
def shiftedOutLeft (a : Byte) : Byte := a >>> 7

/-- Fx1E: 1 iff the untruncated sum exceeds 0xFFF (R222). -/
def indexFlag (i : Word) (b : Byte) : Byte := flagByte (decide (i.toNat + b.toNat > 0xFFF))

/-- Dxyn: 1 iff some pixel went from on to off (R174). -/
def collisionFlag (hit : Bool) : Byte := flagByte hit

end Sys2Proof.Machine
end

