-- ==== Sys2Proof/Machine/Operands.lean ====
section
/-! DEFINITION. Every operand form of the block (30_encoding.md R83): register operands, zero-extended literals, the key
an Ex9E or ExA1 names, the address of a glyph, the digits of a BCD store, the rows of a sprite. -/

namespace Sys2Proof.Machine

/-- `V[x]` read (R11). -/
def State.reg (s : State) (x : Reg) : Byte := s.v[x.val]

/-- `zext_16(nnn)` (R83). -/
def zextAddr (nnn : Addr) : Word := nnn.setWidth 16

/-- `zext_16` of a byte operand, for the sums of Bnnn and Fx1E (R118, R222). -/
def zextByte (b : Byte) : Word := b.setWidth 16

/-- `KeyIndex(v)` (R191): the key `v` names, or the condition that there is no such key. -/
def keyIndex (c : Config) (v : Byte) : Except FaultCode Nat :=
  if v.toNat ≤ 0xF then .ok v.toNat
  else
    match c.keyOob with
    | .mask => .ok (v &&& 0xF).toNat
    | .fault => .error .keyIndexRange

/-- `K[k]` read (R11, R35). -/
def State.key (s : State) (k : Nat) : Bool := s.keys.getLsbD k

/-- One step of Fx0A's scan: a later pressed key replaces an earlier one (R198). -/
def scanKey (s : State) (found : Option Nat) (k : Nat) : Option Nat := if s.key k then some k else found

/-- Fx0A's key: the keys are scanned in ascending order and the last match wins, so it is the highest pressed one; none if
no key is pressed (R197, R198). -/
def State.pressedKey (s : State) : Option Nat := (List.range 16).foldl (scanKey s) none

/-- The address of the glyph for digit `d`, `5 * d`, unmasked (R223). -/
def glyphAddress (d : Byte) : Word := BitVec.ofNat 16 (5 * d.toNat)

/-- The decimal digits of a byte, hundreds first (R224). -/
def bcdDigits (b : Byte) : List Byte :=
  [BitVec.ofNat 8 (b.toNat / 100), BitVec.ofNat 8 (b.toNat / 10 % 10), BitVec.ofNat 8 (b.toNat % 10)]

/-- The registers `V[0]` to `V[x]` in index order, what Fx55 stores (R225). -/
def State.regBlock (s : State) (x : Reg) : List Byte := s.v.toList.take (x.val + 1)

/-- The byte `rnd` of this STEP (R44): the one the host supplied, or the free value. -/
def State.rnd (s : State) : Byte :=
  match s.rndIn with
  | r :: _ => r
  | [] => Config.randomByte s.draws

end Sys2Proof.Machine
end

