-- ==== Sys2Proof/Machine/Ops.lean ====
section
/-! DEFINITION. The named operations over memory, registers and the program counter; recording a fault; and the parts of
a step around its instruction (20_memory.md, 30_encoding.md section 5, 60_exceptions.md). -/

namespace Sys2Proof.Machine

/-! ### Memory -/

/-- What an address reads as after reset, and so what an address memory does not list reads as: the default glyph set at
0x000 to 0x04F, 0 elsewhere (R51, R66). -/
def Memory.unlisted (a : Nat) : Byte := defaultFont[a]?.getD 0

/-- The byte at address `a`. -/
def Memory.read : Memory → Nat → Byte
  | [], a => Memory.unlisted a
  | c :: m, a => if c.1 = a then c.2 else Memory.read m a

/-- A cell put into its place: before the first cell of a higher address. -/
def Memory.insertCell (a : Nat) (b : Byte) : Memory → Memory
  | [] => [(a, b)]
  | c :: m => if a < c.1 then (a, b) :: c :: m else c :: Memory.insertCell a b m

/-- Memory without a cell for address `a`: it then reads as unlisted. -/
def Memory.unlist (m : Memory) (a : Nat) : Memory := m.filter (fun c => c.1 != a)

/-- Memory with byte `b` at address `a`, in the canonical form: listed in its place, or not listed if `b` is what the
address reads as unlisted. -/
def Memory.write (m : Memory) (a : Nat) (b : Byte) : Memory :=
  if b = Memory.unlisted a then m.unlist a else Memory.insertCell a b (m.unlist a)

/-- The canonical form: addresses strictly rising and below 4096, no entry equal to what its address reads as unlisted. -/
abbrev Memory.wf (m : Memory) : Prop :=
  m.Pairwise (fun c d => c.1 < d.1) ∧ ∀ c ∈ m, c.1 < 4096 ∧ c.2 ≠ Memory.unlisted c.1

/-- The byte an access to address `a` reaches, `a mod 4096` (R64). -/
def busAddress (a : Nat) : Nat := a % 4096

/-- `MemRead(a, 1)` (R12). An access that MEM_OOB = fault forbids is refused before it by `addressFault`. -/
def State.memByte (s : State) (a : Nat) : Byte := s.mem.read (busAddress a)

/-- `MemWrite(a + k, 1, ·)` for the bytes listed, in order (R12, R63). -/
def Memory.writeBlock : Memory → Nat → List Byte → Memory
  | m, _, [] => m
  | m, a, b :: bs => Memory.writeBlock (m.write (busAddress a) b) (a + 1) bs

/-- The `k` bytes from address `a` on (R63). -/
def State.memBlock (s : State) (a k : Nat) : List Byte := (List.range k).map (fun j => s.memByte (a + j))

/-- An access to the `k` bytes from `a` on raises AddressRange: MEM_OOB = fault and a byte lies above 0xFFF (R64). -/
def State.addressFault (s : State) (a k : Nat) : Bool :=
  s.cfg.memOob == .fault && decide (0 < k) && decide (0xFFF < a + k - 1)

/-! ### Registers and the program counter -/

/-- `V[x] <- b` (R11). -/
def State.setReg (s : State) (x : Reg) (b : Byte) : State := { s with v := s.v.set x.val b }

/-- A flag and then a destination, both computed from the start-of-step state: with `x = 0xF` the destination remains
(R14, R152). -/
def State.setFlagAndReg (s : State) (x : Reg) (flag result : Byte) : State := (s.setReg VF flag).setReg x result

/-- `next`: `PC <- trunc_16(PC + 2)` (R15). -/
def State.advance (s : State) : State := { s with pc := s.pc + 2 }

/-- `skip` if the condition holds, else `next` (R15). -/
def State.skipIf (s : State) (c : Bool) : State := { s with pc := if c then s.pc + 4 else s.pc + 2 }

/-- `V[0]` to `V[x]` loaded from memory at `a` (R226). -/
def State.loadRegs (s : State) (x : Reg) (a : Nat) : Vector Byte 16 :=
  Vector.ofFn (fun k : Fin 16 => if k ≤ x then s.memByte (a + k.val) else s.reg k)

/-- `I <- trunc_16(I + x + 1)` (R225, R226). -/
def State.indexPast (s : State) (x : Reg) : Word := BitVec.ofNat 16 (s.I.toNat + x.val + 1)

/-! ### Taking a fault (60_exceptions.md)

There is no trap vector, no saved register and no return from a fault (R255, R257): a fault records its code and leaves
everything else to the end of the step. -/

/-- The codes of R251. -/
def FaultCode.code : FaultCode → BitVec 3
  | .invalidOpcode => 1
  | .stackOverflow => 2
  | .stackUnderflow => 3
  | .addressRange => 4
  | .keyIndexRange => 5

/-- `if fault = 0: fault <- code` (R252). -/
def State.recordFault (s : State) (c : FaultCode) : State :=
  { s with fault := if s.fault = 0 then c.code else s.fault }

/-- `raise Fault(code)` (R13, R95, R253): none of the instruction's writes, PC at the faulting word, the code recorded. The
one operation every fault of the block goes through. -/
def raiseFault (c : FaultCode) (s : State) : Outcome := .next (s.recordFault c)

/-! ### The step around its instruction -/

/-- Fetch (R91): the two bytes at PC and PC + 1, high byte first; AddressRange under MEM_OOB = fault if PC > 0xFFE. -/
def State.fetch (s : State) : Except FaultCode Word :=
  if s.addressFault s.pc.toNat 2 then .error .addressRange
  else .ok (s.memByte s.pc.toNat ++ s.memByte (s.pc.toNat + 1))

/-- The instruction at PC, or the condition its fetch or decode raises, in the order of R256 (R91, R92). -/
def State.fetchInstr (s : State) : Except FaultCode Instr :=
  match s.fetch with
  | .error c => .error c
  | .ok w =>
    match decodeWord w with
    | .ok i => .ok i
    | .error _ => .error .invalidOpcode

/-- `key_wait` at the start of a step. R96 writes it at the end of every step, 1 only if the step ran a waiting Fx0A: it is
cleared first, and only a waiting Fx0A sets it. Nothing in a step reads it (R30). -/
def State.beginStep (s : State) : State := { s with keyWait := false }

/-- A timer counted down by one, stopping at 0 (R206). -/
def countDown (t : Byte) : Byte := if t = 0 then 0 else t - 1

/-- Both timers counted down (R206, R207). -/
def State.countTimers (s : State) : State := { s with dt := countDown s.dt, st := countDown s.st }

/-- End-of-step actions (R96), and this STEP's byte `rnd` used up (R44). -/
def State.endStep (s : State) : State :=
  let t := match s.cfg.timerPolicy with
    | .perStep => s.countTimers
    | .tick60 => s
  { t with rndIn := s.rndIn.tail, draws := s.draws + 1 }

/-- The end of a step whose instruction or fault path ended so. -/
def finish : Outcome → Outcome
  | .next s => .next s.endStep
  | .fault r => .fault r
  | .refused r => .refused r

/-- Instruction memory with the word `w` of `nbits` bits at PC, high byte first, for `withFetchWord`; where MEM_OOB = fault
forbids a fetch at PC, PC is first set to the program base. -/
def State.placeWord (s : State) (nbits w : Nat) : State :=
  let v := w % 2 ^ nbits
  let pc := if s.addressFault s.pc.toNat 2 then BitVec.ofNat 16 programBase else s.pc
  { s with pc := pc
           mem := s.mem.writeBlock pc.toNat [BitVec.ofNat 8 (v / 256), BitVec.ofNat 8 v] }

end Sys2Proof.Machine
end

