-- ==== Sys2Proof/Machine/Alu.lean ====
section
/-! DEFINITION. Register loads and the ALU (41_alu.md): 6xkk, 7xkk, the 8xy_ family, Cxkk. Every result is taken modulo 256
(R140). -/

namespace Sys2Proof.Machine

/-- `6xkk` LD Vx, byte (R141). -/
def execLdImm (x : Reg) (kk : Byte) (s : State) : Outcome := .next (s.setReg x kk).advance

/-- `7xkk` ADD Vx, byte, no flag (R142). -/
def execAddImm (x : Reg) (kk : Byte) (s : State) : Outcome := .next (s.setReg x (s.reg x + kk)).advance

/-- `8xy0` LD Vx, Vy (R143). -/
def execLdReg (x y : Reg) (s : State) : Outcome := .next (s.setReg x (s.reg y)).advance

/-- `8xy1` OR Vx, Vy (R144). -/
def execOrReg (x y : Reg) (s : State) : Outcome := .next (s.setReg x (s.reg x ||| s.reg y)).advance

/-- `8xy2` AND Vx, Vy (R145). -/
def execAndReg (x y : Reg) (s : State) : Outcome := .next (s.setReg x (s.reg x &&& s.reg y)).advance

/-- `8xy3` XOR Vx, Vy (R146). -/
def execXorReg (x y : Reg) (s : State) : Outcome := .next (s.setReg x (s.reg x ^^^ s.reg y)).advance

/-- `8xy4` ADD Vx, Vy (R147, R152). -/
def execAddReg (x y : Reg) (s : State) : Outcome :=
  .next (s.setFlagAndReg x (carryFlag (s.reg x) (s.reg y)) (s.reg x + s.reg y)).advance

/-- `8xy5` SUB Vx, Vy (R148, R152). -/
def execSub (x y : Reg) (s : State) : Outcome :=
  .next (s.setFlagAndReg x (notBorrowFlag (s.reg x) (s.reg y)) (s.reg x - s.reg y)).advance

/-- `8xy6` SHR Vx; `y` is not used (R149, R152). -/
def execShr (x _y : Reg) (s : State) : Outcome :=
  .next (s.setFlagAndReg x (shiftedOutRight (s.reg x)) (s.reg x >>> 1)).advance

/-- `8xy7` SUBN Vx, Vy (R150, R152). -/
def execSubn (x y : Reg) (s : State) : Outcome :=
  .next (s.setFlagAndReg x (notBorrowFlag (s.reg y) (s.reg x)) (s.reg y - s.reg x)).advance

/-- `8xyE` SHL Vx; `y` is not used (R151, R152). -/
def execShl (x _y : Reg) (s : State) : Outcome :=
  .next (s.setFlagAndReg x (shiftedOutLeft (s.reg x)) (s.reg x <<< 1)).advance

/-- `Cxkk` RND Vx, byte (R153): this STEP's byte `rnd`, masked. -/
def execRnd (x : Reg) (kk : Byte) (s : State) : Outcome := .next (s.setReg x (s.rnd &&& kk)).advance

end Sys2Proof.Machine
end

