-- ==== Sys2Proof/Machine/ControlFlow.lean ====
section
/-! DEFINITION. Control flow (40_control_flow.md): RET, JP, CALL, the four register and immediate skips, JP V0. -/

namespace Sys2Proof.Machine

/-- `00EE` RET (R111). -/
def execRet (s : State) : Outcome :=
  if s.sp = 0 then raiseFault .stackUnderflow s
  else if h : s.sp.toNat - 1 < 16 then
    .next { s with sp := s.sp - 1, pc := s.stack[s.sp.toNat - 1] + 2 }
  else .fault .stackIndexRange

/-- `1nnn` JP addr (R112). -/
def execJp (nnn : Addr) (s : State) : Outcome := .next { s with pc := zextAddr nnn }

/-- `2nnn` CALL addr (R113): the pushed value is the address of the 2nnn word itself. -/
def execCall (nnn : Addr) (s : State) : Outcome :=
  if s.sp = 16 then raiseFault .stackOverflow s
  else if h : s.sp.toNat < 16 then
    .next { s with stack := s.stack.set s.sp.toNat s.pc, sp := s.sp + 1, pc := zextAddr nnn }
  else .fault .stackIndexRange

/-- `3xkk` SE Vx, byte (R114). -/
def execSeImm (x : Reg) (kk : Byte) (s : State) : Outcome := .next (s.skipIf (s.reg x == kk))

/-- `4xkk` SNE Vx, byte (R115). -/
def execSneImm (x : Reg) (kk : Byte) (s : State) : Outcome := .next (s.skipIf (s.reg x != kk))

/-- `5xy0` SE Vx, Vy (R116). -/
def execSeReg (x y : Reg) (s : State) : Outcome := .next (s.skipIf (s.reg x == s.reg y))

/-- `9xy0` SNE Vx, Vy (R117). -/
def execSneReg (x y : Reg) (s : State) : Outcome := .next (s.skipIf (s.reg x != s.reg y))

/-- `Bnnn` JP V0, addr (R118). -/
def execJpV0 (nnn : Addr) (s : State) : Outcome := .next { s with pc := zextAddr nnn + zextByte (s.reg 0) }

end Sys2Proof.Machine
end

