-- ==== Sys2Proof/Machine/IndexMemory.lean ====
section
/-! DEFINITION. Index register and memory transfers (44_index_memory.md). -/

namespace Sys2Proof.Machine

/-- `Annn` LD I, addr (R220). -/
def execLdI (nnn : Addr) (s : State) : Outcome := .next ({ s with I := zextAddr nnn }).advance

/-- `Fx1E` ADD I, Vx (R222): the flag from the untruncated sum. -/
def execAddI (x : Reg) (s : State) : Outcome :=
  .next ({ s.setReg VF (indexFlag s.I (s.reg x)) with I := s.I + zextByte (s.reg x) }).advance

/-- `Fx29` LD F, Vx (R223). -/
def execLdF (x : Reg) (s : State) : Outcome := .next ({ s with I := glyphAddress (s.reg x) }).advance

/-- `Fx33` LD B, Vx (R224). -/
def execLdB (x : Reg) (s : State) : Outcome :=
  if s.addressFault s.I.toNat 3 then raiseFault .addressRange s
  else .next ({ s with mem := s.mem.writeBlock s.I.toNat (bcdDigits (s.reg x)) }).advance

/-- `Fx55` LD [I], Vx (R225). -/
def execLdMemVx (x : Reg) (s : State) : Outcome :=
  if s.addressFault s.I.toNat (x.val + 1) then raiseFault .addressRange s
  else .next ({ s with mem := s.mem.writeBlock s.I.toNat (s.regBlock x), I := s.indexPast x }).advance

/-- `Fx65` LD Vx, [I] (R226). -/
def execLdVxMem (x : Reg) (s : State) : Outcome :=
  if s.addressFault s.I.toNat (x.val + 1) then raiseFault .addressRange s
  else .next ({ s with v := s.loadRegs x s.I.toNat, I := s.indexPast x }).advance

end Sys2Proof.Machine
end

