-- ==== Sys2Proof/Machine/KeysTimers.lean ====
section
/-! DEFINITION. Keys and timers (43_keys_timers.md): the key skips, the timer transfers, the key wait. -/

namespace Sys2Proof.Machine

/-- `Ex9E` SKP Vx (R192). -/
def execSkp (x : Reg) (s : State) : Outcome :=
  match keyIndex s.cfg (s.reg x) with
  | .ok k => .next (s.skipIf (s.key k))
  | .error c => raiseFault c s

/-- `ExA1` SKNP Vx (R193). -/
def execSknp (x : Reg) (s : State) : Outcome :=
  match keyIndex s.cfg (s.reg x) with
  | .ok k => .next (s.skipIf (!s.key k))
  | .error c => raiseFault c s

/-- `Fx07` LD Vx, DT (R194). -/
def execLdVxDT (x : Reg) (s : State) : Outcome := .next (s.setReg x s.dt).advance

/-- `Fx0A` LD Vx, K (R197): with no key pressed it waits, PC and V[x] unchanged. -/
def execLdVxK (x : Reg) (s : State) : Outcome :=
  match s.pressedKey with
  | none => .next { s with keyWait := true }
  | some k => .next ({ s.setReg x (BitVec.ofNat 8 k) with keyWait := false }).advance

/-- `Fx15` LD DT, Vx (R195). -/
def execLdDTVx (x : Reg) (s : State) : Outcome := .next ({ s with dt := s.reg x }).advance

/-- `Fx18` LD ST, Vx (R196). -/
def execLdSTVx (x : Reg) (s : State) : Outcome := .next ({ s with st := s.reg x }).advance

end Sys2Proof.Machine
end

