-- ==== Sys2Proof/Machine/Raster.lean ====
section
/-! DEFINITION. The display rasterizer (42_display.md): CLS and DRW. -/

namespace Sys2Proof.Machine

/-- The display byte that holds `Pix(r, c)` (R34). -/
def pixByte (r : Fin 32) (c : Fin 64) : Fin 256 := ⟨8 * r.val + c.val / 8, by omega⟩

/-- The bit of that byte, the most significant leftmost (R34). -/
def pixBit (c : Fin 64) : Nat := 7 - c.val % 8

/-- `Pix(r, c)` read (R34). -/
def Display.pix (d : Display) (r : Fin 32) (c : Fin 64) : Bool := (d[(pixByte r c).val]).getLsbD (pixBit c)

/-- `Pix(r, c) <- Pix(r, c) ^ 1` (R34, R170). -/
def Display.flipPix (d : Display) (r : Fin 32) (c : Fin 64) : Display :=
  d.set (pixByte r c).val (d[(pixByte r c).val] ^^^ (1#8 <<< pixBit c))

/-- The row a sprite row lands on, modulo 32 (R173). -/
def wrapRow (a : Nat) : Fin 32 := Fin.ofNat 32 a

/-- The column a sprite column lands on, modulo 64 (R173). -/
def wrapCol (a : Nat) : Fin 64 := Fin.ofNat 64 a

/-- Bit `7 - c` of a sprite byte: its pixel at column offset `c` (R172). -/
def spriteBit (b : Byte) (c : Nat) : Bool := b.getLsbD (7 - c)

/-- One pixel of a draw: the display and whether a pixel has gone from on to off so far (R174). -/
def drawPixel (b : Byte) (row col : Nat) (acc : Display × Bool) (c : Nat) : Display × Bool :=
  if spriteBit b c then
    (acc.1.flipPix (wrapRow row) (wrapCol (col + c)), acc.2 || acc.1.pix (wrapRow row) (wrapCol (col + c)))
  else acc

/-- One row of a draw: the eight columns (R174). -/
def drawRow (b : Byte) (row col : Nat) (acc : Display × Bool) : Display × Bool :=
  (List.range 8).foldl (drawPixel b row col) acc

/-- The rows of a draw, the first at `row`, from column `col` (R174). -/
def drawRows : List Byte → Nat → Nat → Display × Bool → Display × Bool
  | [], _, _, acc => acc
  | b :: bs, row, col, acc => drawRows bs (row + 1) col (drawRow b row col acc)

/-- `00E0` CLS (R171). -/
def execCls (s : State) : Outcome :=
  .next ({ s with disp := Vector.replicate 256 0, dirty := true }).advance

/-- `Dxyn` DRW Vx, Vy, nibble (R174). -/
def execDrw (x y : Reg) (n : Nat) (s : State) : Outcome :=
  if s.addressFault s.I.toNat n then raiseFault .addressRange s
  else
    let drawn := drawRows (s.memBlock s.I.toNat n) (s.reg y).toNat (s.reg x).toNat (s.disp, false)
    .next ({ s.setReg VF (collisionFlag drawn.2) with disp := drawn.1, dirty := true }).advance

end Sys2Proof.Machine
end

