-- ==== Sys2Proof/Machine/Step.lean ====
section
/-! DEFINITION. One STEP (30_encoding.md R90 to R97): fetch, decode, execute or the fault path, end-of-step actions. -/

namespace Sys2Proof.Machine

/-- `STEP(rnd)` with `rnd` the byte of `State.rnd` (R44, R90). -/
def step (s : State) : Host.Outcome State Fault Refusal :=
  match s.beginStep.fetchInstr with
  | .ok i => finish (exec i s.beginStep)
  | .error c => finish (raiseFault c s.beginStep)

/-- The state with the instruction word `w` where the next step fetches it. -/
def State.withFetchWord (s : State) (nbits w : Nat) : State := s.placeWord nbits w

end Sys2Proof.Machine
end

