-- ==== Sys2Proof/Machine/HostOps.lean ====
section
/-! DEFINITION. The host interface (10_state.md section 9, 70_reset_and_hazards.md section 1): the atomic operations of R40.
Each is a function of the whole state, so no operation sees part of another (R41). -/

namespace Sys2Proof.Machine

/-- The result of LOAD (R40, R266). -/
inductive LoadResult where
  | ok
  | programTooLarge
  deriving DecidableEq, Repr

/-- The operations of R40, with their arguments. -/
inductive HostOp where
  | reset
  | load (image : List Byte)
  | step (rnd : Byte)
  | setKeys (k : BitVec 16)
  | readDisplay
  | clearDirty
  | tick
  | readStatus
  deriving DecidableEq, Repr

/-- The results of R40. -/
inductive HostReply where
  | none
  | loaded (r : LoadResult)
  | display (bytes : Display) (dirty : Bool)
  | status (fault : BitVec 3) (keyWait : Bool) (dt st : Byte)
  deriving DecidableEq, Repr

/-- The reset state under given parameters (R51): memory holds FONT at 0x000 to 0x04F and 0 elsewhere. -/
def resetUnder (c : Config) : State :=
  { State.reset with cfg := c, mem := Memory.writeBlock [] 0 c.font.toList }

/-- `RESET` (R280). The parameters and the host's bytes `rnd` are not the block's state and stay. -/
def opReset (s : State) : State := { resetUnder s.cfg with rndIn := s.rndIn, draws := s.draws }

/-- The largest program image, 3584 bytes (R7). -/
def maxImage : Nat := 3584

/-- `LOAD(image)` (R282): the length is checked first, and a refused LOAD changes nothing. -/
def opLoad (image : List Byte) (s : State) : State × LoadResult :=
  if image.length > maxImage then (s, .programTooLarge)
  else
    let r := opReset s
    ({ r with mem := r.mem.writeBlock programBase image }, .ok)

/-- `STEP(rnd)` (R44). -/
def opStep (rnd : Byte) (s : State) : Outcome := step { s with rndIn := rnd :: s.rndIn }

/-- `SET_KEYS(k)` (R45). -/
def opSetKeys (k : BitVec 16) (s : State) : State := { s with keys := k }

/-- `CLEAR_DIRTY` (R47). -/
def opClearDirty (s : State) : State := { s with dirty := false }

/-- `TICK` (R207): the timer decrement under tick60; under per_step it is not an operation of the block. -/
def opTick (s : State) : Outcome :=
  match s.cfg.timerPolicy with
  | .tick60 => .next s.countTimers
  | .perStep => .refused .tickUnderPerStep

/-- An outcome with the empty result. -/
def withoutReply : Outcome → Host.Outcome (State × HostReply) Fault Refusal
  | .next s => .next (s, .none)
  | .fault r => .fault r
  | .refused r => .refused r

/-- One host operation: the state after it and its result (R40). -/
def perform (op : HostOp) (s : State) : Host.Outcome (State × HostReply) Fault Refusal :=
  match op with
  | .reset => .next (opReset s, .none)
  | .load image => .next ((opLoad image s).1, .loaded (opLoad image s).2)
  | .step rnd => withoutReply (opStep rnd s)
  | .setKeys k => .next (opSetKeys k s, .none)
  | .readDisplay => .next (s, .display s.disp s.dirty)
  | .clearDirty => .next (opClearDirty s, .none)
  | .tick => withoutReply (opTick s)
  | .readStatus => .next (s, .status s.fault s.keyWait s.dt s.st)

end Sys2Proof.Machine
end

