-- ==== Sys2Proof/Safety.lean ====
section
/-! DEFINITION. The terms the claims use: the states the block can be in, a step that does not stop, the end states of
70_reset_and_hazards.md R298, and the spec's words for what a step fetches, which fault it raises, what an instruction
leaves alone and which pixels a sprite sets. They are written from the spec's rules, not from the meanings. -/

namespace Sys2Proof.Machine

/-- What every state of the block satisfies: SP counts occupied entries, 0 to 16 (R28); `fault` holds a code of R251 or 0
(6 and 7 are never written); memory is in its canonical form. -/
structure State.Inv (s : State) : Prop where
  spInRange : s.sp.toNat ≤ 16
  faultIsACode : s.fault.toNat ≤ 5
  memCanonical : s.mem.wf

/-- The step ended in a next state. -/
def Safe (o : Outcome) : Prop := ∃ t, o = .next t

/-- The word at PC, high byte first, addresses modulo 4096 (R61, R64). -/
def State.wordAtPc (s : State) : Word :=
  s.mem.read (s.pc.toNat % 4096) ++ s.mem.read ((s.pc.toNat + 1) % 4096)

/-- The fetch raises no fault (R91). -/
def State.fetchable (s : State) : Prop := s.cfg.memOob = .fault → s.pc.toNat ≤ 0xFFE

/-- `k` bytes from `a` on reach above 0xFFF under MEM_OOB = fault (R64). -/
def State.outOfRange (s : State) (a k : Nat) : Bool :=
  decide (s.cfg.memOob = .fault ∧ 0 < k ∧ a + k - 1 > 0xFFF)

/-- `V[x]` names no key under KEY_OOB = fault (R191). -/
def State.noSuchKey (s : State) (x : Reg) : Bool := decide (s.cfg.keyOob = .fault ∧ (s.reg x).toNat > 0xF)

/-- The fault an instruction raises in a state, from the table of R251. -/
def instrFault (s : State) : Instr → Option FaultCode
  | .call _ => if s.sp.toNat = 16 then some .stackOverflow else none
  | .ret => if s.sp.toNat = 0 then some .stackUnderflow else none
  | .drw _ _ n => if s.outOfRange s.I.toNat n then some .addressRange else none
  | .ldB _ => if s.outOfRange s.I.toNat 3 then some .addressRange else none
  | .ldMemVx x => if s.outOfRange s.I.toNat (x.val + 1) then some .addressRange else none
  | .ldVxMem x => if s.outOfRange s.I.toNat (x.val + 1) then some .addressRange else none
  | .skp x => if s.noSuchKey x then some .keyIndexRange else none
  | .sknp x => if s.noSuchKey x then some .keyIndexRange else none
  | _ => none

/-- The fault the step at a state raises, in the order of R256: at the fetch, at decode, the instruction's own. -/
def stepFault (s : State) : Option FaultCode :=
  if s.outOfRange s.pc.toNat 2 then some .addressRange
  else
    match decodeWord s.wordAtPc with
    | .ok i => instrFault s i
    | .error _ => some .invalidOpcode

/-- `fault` after a fault with this code: the first code stays (R252). -/
def State.faultAfter (s : State) (c : FaultCode) : BitVec 3 := if s.fault = 0 then c.code else s.fault

/-- The code numbers of R251. -/
def faultNumber : FaultCode → Nat
  | .invalidOpcode => 1
  | .stackOverflow => 2
  | .stackUnderflow => 3
  | .addressRange => 4
  | .keyIndexRange => 5

/-- A timer after a step's decrement under the policy of the state (R206): one less, but not below 0, under per_step. -/
def State.timerAfter (s : State) (t : Byte) : Nat :=
  match s.cfg.timerPolicy with
  | .perStep => t.toNat - 1
  | .tick60 => t.toNat

/-- Every word that matches the row is that instruction, with the fields of the word (R84, R92). -/
def DecodesTo (pattern mask : Word) (operands : Word → Instr) : Prop :=
  ∀ w : Word, w &&& mask = pattern → decodeWord w = .ok (operands w)

/-- The frame of an instruction that writes registers only: of the V registers only those listed may differ, of everything
else only PC, and every byte of memory reads as before. -/
structure OnlyRegs (s t : State) (written : List Reg) : Prop where
  regs : ∀ z : Reg, z ∉ written → t.reg z = s.reg z
  rest : t = { s with v := t.v, pc := t.pc }
  bytes : ∀ a : Nat, t.mem.read a = s.mem.read a

/-- Target pixel and sprite bit (R172, R173): some row `r` and column offset `c` of the sprite with its bit set land on
`Pix(row, col)`. -/
def spriteSets (s : State) (x y : Reg) (n : Nat) (row : Fin 32) (col : Fin 64) : Bool :=
  (List.range n).any fun r => (List.range 8).any fun c =>
    decide (row.val = ((s.reg y).toNat + r) % 32) && decide (col.val = ((s.reg x).toNat + c) % 64) &&
      (s.mem.read ((s.I.toNat + r) % 4096)).getLsbD (7 - c)

/-- *Stalled* (R298): a fault has been recorded. -/
def State.stalled (s : State) : Bool := s.fault != 0

/-- *Parked* (R298): the word at PC is a jump to its own address. -/
def State.parked (s : State) : Prop :=
  s.fetchable ∧ ∃ nnn : Addr, decodeWord s.wordAtPc = .ok (.jp nnn) ∧ nnn.toNat = s.pc.toNat

end Sys2Proof.Machine
end

