-- ==== Sys2Proof/Certificates/Slice0/Obligations.lean ====
section
/-! DEFINITION. The statements for the provers. Each docstring names the rule of spec/ it formalises. A clause about an
encoding (`DecodesTo`) is the rule's own 'Encoding' line; a clause `= .next …` says that the instruction completes. -/

open Sys2Proof Sys2Proof.Machine

/-! ### Encoding -/

/-- Decoding the two bytes of a well-formed instruction, in memory order, gives that instruction and leaves nothing (R80,
R81, R84): no bit of an encoding is dropped. -/
def Obligations.DecodeOfEncodeIsTheInstruction : Prop :=
  ∀ i : Instr, WellFormed i = true →
    decode (encodeBytes i) = .ok (i, []) ∧ decodeWord (encode i) = .ok i

/-- A word that decodes is the encoding of the well-formed instruction it decodes to (R81, R84, R92). -/
def Obligations.EncodeOfDecodeIsTheWord : Prop :=
  ∀ (w : Word) (i : Instr), decodeWord w = .ok i → WellFormed i = true ∧ encode i = w

/-- R92 (the spec's decision D4): the decoder is the opcode table: the row whose `match` equals `w & mask`, its fields taken from `w`, or invalid. -/
def Obligations.DecoderIsTheOpcodeTable : Prop :=
  ∀ w : Word, decodeWord w =
    match opcodeTable.find? (fun r => w &&& r.mask == r.pattern) with
    | some r => .ok (r.operands w)
    | none => .error .invalidOpcode

/-- The 34 patterns of R84 are pairwise disjoint: R86, which the spec marks as its own inference. -/
def Obligations.OpcodeRowsArePairwiseDisjoint : Prop :=
  opcodeTable.length = 34 ∧
    opcodeTable.Pairwise (fun r q => ∀ w : Word, ¬ (w &&& r.mask = r.pattern ∧ w &&& q.mask = q.pattern))

/-- Exactly which words are invalid: the word column of R88's table, family by family. R88, and R93 for family 0x0, are the
spec's own inferences from R84's table and R87's strict decode (its decision D4). -/
def Obligations.InvalidWordsAreThoseListed : Prop :=
  ∀ w : Word, decodeWord w = .error .invalidOpcode ↔
    (fieldOp w = 0x0 ∧ w ≠ 0x00E0 ∧ w ≠ 0x00EE) ∨
    (fieldOp w = 0x5 ∧ fieldN w ≠ 0) ∨
    (fieldOp w = 0x8 ∧ fieldN w ∈ [0x8#4, 0x9#4, 0xA#4, 0xB#4, 0xC#4, 0xD#4, 0xF#4]) ∨
    (fieldOp w = 0x9 ∧ fieldN w ≠ 0) ∨
    (fieldOp w = 0xE ∧ fieldKK w ∉ [0x9E#8, 0xA1#8]) ∨
    (fieldOp w = 0xF ∧
      fieldKK w ∉ [0x07#8, 0x0A#8, 0x15#8, 0x18#8, 0x1E#8, 0x29#8, 0x33#8, 0x55#8, 0x65#8])

/-- Words written out from R84's encodings decode to the instructions they stand for, and three that are no instruction
do not (a sanity statement). -/
def Obligations.WordsWrittenFromTheTableDecode : Prop :=
  decodeWord 0x00E0 = .ok .cls ∧ decodeWord 0x1ABC = .ok (.jp 0xABC) ∧ decodeWord 0x3A42 = .ok (.seImm 0xA 0x42) ∧
  decodeWord 0x8125 = .ok (.sub 1 2) ∧ decodeWord 0xD12F = .ok (.drw 1 2 15) ∧ decodeWord 0xE7A1 = .ok (.sknp 7) ∧
  decodeWord 0xF355 = .ok (.ldMemVx 3) ∧ decodeWord 0x01E0 = .error .invalidOpcode ∧
  decodeWord 0x5121 = .error .invalidOpcode ∧ decodeWord 0x812F = .error .invalidOpcode

/-! ### The step -/

/-- R90, R91, R94: when the word at PC decodes to an instruction, the step is that instruction's own effect at the state
with `key_wait` cleared, and then the end of the step; a stop of the instruction is a stop of the step. That `key_wait` is
cleared before the instruction, and not written at the end of the step where R96 has it written, is the model's choice, log
entry 10 (DEDUCED); the value left is the same. -/
def Obligations.StepRunsTheDecodedInstruction : Prop :=
  ∀ (s : State) (i : Instr), s.fetchable → decodeWord s.wordAtPc = .ok i →
    step s = match exec i { s with keyWait := false } with
      | .next t => .next t.endStep
      | .fault r => .fault r
      | .refused r => .refused r

/-- R206 (the spec's decisions D13, D14): after the instruction or the fault path, whichever ran, both timers count down by
one if nonzero under per_step and stay under tick60. That the instruction runs at `key_wait` cleared and that nothing else of
the block changes after it, where R96 has `key_wait` written too, is the model's choice, log entry 10 (DEDUCED); `rndIn` and
`draws`, which the end of a step does change, are the model's own, log entry 4. -/
def Obligations.EveryStepCountsTheTimersLast : Prop :=
  ∀ s t : State, step s = .next t → ∃ u : State,
    ((∃ i, stepFault s = none ∧ decodeWord s.wordAtPc = .ok i ∧ exec i { s with keyWait := false } = .next u) ∨
      (∃ c, stepFault s = some c ∧ u = { s with keyWait := false, fault := s.faultAfter c })) ∧
    t = { u with dt := t.dt, st := t.st, rndIn := t.rndIn, draws := t.draws } ∧
    (s.cfg.timerPolicy = .perStep →
      t.dt = (if u.dt = 0 then 0 else u.dt - 1) ∧ t.st = (if u.st = 0 then 0 else u.st - 1)) ∧
    (s.cfg.timerPolicy = .tick60 → t.dt = u.dt ∧ t.st = u.st)

/-- R253 (with R95 and R252; the spec's decision D5): a faulting step ends in a next state in which only the timers, `key_wait` and `fault` differ; `fault` keeps the first
code. (`rndIn` and `draws` are the model's own: the step's byte `rnd` is used up.) -/
def Obligations.FaultingStepChangesOnlyTimersAndStatus : Prop :=
  ∀ (s : State) (c : FaultCode), stepFault s = some c → ∃ t, step s = .next t ∧
    t = { s with fault := t.fault, keyWait := false, dt := t.dt, st := t.st, rndIn := t.rndIn, draws := t.draws } ∧
    t.fault.toNat = (if s.fault = 0 then faultNumber c else s.fault.toNat) ∧
    t.dt.toNat = s.timerAfter s.dt ∧ t.st.toNat = s.timerAfter s.st

/-- A step that raises no fault does not write `fault` (R39, R252): with the statement before, only a fault does, and a
recorded code stays. -/
def Obligations.FaultRegisterIsWrittenByFaultsOnly : Prop :=
  ∀ s t : State, step s = .next t →
    (stepFault s = none → t.fault = s.fault) ∧ (s.fault ≠ 0 → t.fault = s.fault) ∧
    (s.fault = 0 → t.fault.toNat = (match stepFault s with | some c => faultNumber c | none => 0))

/-- R254, which the spec marks as its own inference from R253 and R95: a fault repeats. However many steps follow, each raises the same fault, PC stays at the faulting word, and only
the timers, `key_wait` and `fault` (which keeps its first code) have changed; and the host's operations other than RESET and
LOAD do not end it. (`rndIn` and `draws` are the model's own: each step's byte `rnd` is used up.) -/
def Obligations.FaultRepeatsUntilResetOrLoad : Prop :=
  ∀ (s : State) (c : FaultCode), stepFault s = some c →
    (∀ n : Nat, ∃ t : State, Host.Core.run Sys2Proof.core (n + 1) s = .next t ∧ stepFault t = some c ∧
      t = { s with fault := t.fault, keyWait := false, dt := t.dt, st := t.st, rndIn := t.rndIn, draws := t.draws } ∧
      t.fault = s.faultAfter c) ∧
    (∀ (op : HostOp) (t : State) (reply : HostReply), op ≠ .reset → (∀ image, op ≠ .load image) →
      perform op s = .next (t, reply) → stepFault t = some c ∧ t.pc = s.pc)

/-- R30: every step writes `key_wait`, 1 exactly if it ran an Fx0A and found no key pressed; and the bit changes no
behaviour. -/
def Obligations.KeyWaitIsTheWaitingFx0A : Prop :=
  (∀ s t : State, step s = .next t →
    (t.keyWait = true ↔ s.fetchable ∧ (∃ x, decodeWord s.wordAtPc = .ok (.ldVxK x)) ∧ ∀ k < 16, s.keys.getLsbD k = false)) ∧
  (∀ (s : State) (b : Bool), step { s with keyWait := b } = step s)

/-- R97's 'never': a step never writes the key latch and never clears `dirty`; and R29: only 00E0 and Dxyn set it. -/
def Obligations.StepNeverWritesKeysNorClearsDirty : Prop :=
  ∀ s t : State, step s = .next t → t.keys = s.keys ∧ t.cfg = s.cfg ∧
    (t.dirty = true ↔ s.dirty = true ∨
      (stepFault s = none ∧
        (decodeWord s.wordAtPc = .ok .cls ∨ ∃ x y n, decodeWord s.wordAtPc = .ok (.drw x y n))))

/-- Which instructions write which state (the writer lists of R26, R27, R28, R32, R33 and R63): where one of these differs
after an instruction, the instruction is one the spec names as its writer. No instruction writes the keys (R35) or the
parameters, which R38 says are no state (they stand in `cfg`, log entry 3). `rndIn` and `draws` are the model's own fields, log
entry 4: no instruction writes them either. -/
def Obligations.EachStateIsWrittenByItsNamedWriters : Prop :=
  ∀ (i : Instr) (s t : State), exec i s = .next t →
    (t.I ≠ s.I → (∃ a, i = .ldI a) ∨ ∃ x, i = .addI x ∨ i = .ldF x ∨ i = .ldMemVx x ∨ i = .ldVxMem x) ∧
    (t.dt ≠ s.dt → ∃ x, i = .ldDTVx x) ∧ (t.st ≠ s.st → ∃ x, i = .ldSTVx x) ∧
    (t.sp ≠ s.sp → i = .ret ∨ ∃ a, i = .call a) ∧ (t.stack ≠ s.stack → ∃ a, i = .call a) ∧
    (t.disp ≠ s.disp → i = .cls ∨ ∃ x y n, i = .drw x y n) ∧
    ((∃ a, t.mem.read a ≠ s.mem.read a) → ∃ x, i = .ldB x ∨ i = .ldMemVx x) ∧
    t.keys = s.keys ∧ t.cfg = s.cfg ∧ t.rndIn = s.rndIn ∧ t.draws = s.draws

/-- R37's second sentence: no instruction other than the flag writers writes VF except by naming it as a destination
(for Fx65: x = 0xF). -/
def Obligations.OnlyFlagWritersOverwriteVF : Prop :=
  ∀ (i : Instr) (s t : State), exec i s = .next t → t.reg VF ≠ s.reg VF →
    (∃ x y, i = .addReg x y ∨ i = .sub x y ∨ i = .shr x y ∨ i = .subn x y ∨ i = .shl x y) ∨
    (∃ x y n, i = .drw x y n) ∨ (∃ x, i = .addI x) ∨
    (∃ kk, i = .ldImm VF kk ∨ i = .addImm VF kk ∨ i = .rnd VF kk) ∨
    (∃ y, i = .ldReg VF y ∨ i = .orReg VF y ∨ i = .andReg VF y ∨ i = .xorReg VF y) ∨
    i = .ldVxDT VF ∨ i = .ldVxK VF ∨ i = .ldVxMem VF

/-- What a program cannot learn (R27: no instruction reads ST; R29: none reads `dirty`; R38: a program never reads
`key_wait` and `fault`): two states that differ only there step to states that differ only there. -/
def Obligations.StatusBitsAndSoundTimerAreNotRead : Prop :=
  ∀ s s' t : State, s' = { s with st := s'.st, dirty := s'.dirty, keyWait := s'.keyWait, fault := s'.fault } →
    step s = .next t →
    ∃ t', step s' = .next t' ∧ t' = { t with st := t'.st, dirty := t'.dirty, keyWait := t'.keyWait, fault := t'.fault }

/-! ### Control flow -/

/-- R111 RET (the spec's decision D7 on underflow). -/
def Obligations.RetPopsAndSkipsTheCall : Prop :=
  DecodesTo 0x00EE 0xFFFF (fun _ => .ret) ∧
  ∀ s : State,
    (s.sp.toNat = 0 → exec .ret s = .next { s with fault := s.faultAfter .stackUnderflow }) ∧
    (1 ≤ s.sp.toNat → s.sp.toNat ≤ 16 → ∃ (t : State) (e : Word), exec .ret s = .next t ∧
      s.stack[s.sp.toNat - 1]? = some e ∧ t = { s with sp := t.sp, pc := e + 2 } ∧ t.sp.toNat = s.sp.toNat - 1)

/-- R113 CALL (the spec's decision D7 on overflow): the address pushed is that of the 2nnn word. -/
def Obligations.CallPushesItsOwnAddress : Prop :=
  DecodesTo 0x2000 0xF000 (fun w => .call (fieldNNN w)) ∧
  ∀ (s : State) (nnn : Addr),
    (s.sp.toNat = 16 → exec (.call nnn) s = .next { s with fault := s.faultAfter .stackOverflow }) ∧
    (s.sp.toNat < 16 → ∃ t : State, exec (.call nnn) s = .next t ∧
      t = { s with stack := t.stack, sp := t.sp, pc := t.pc } ∧ t.pc.toNat = nnn.toNat ∧
      t.sp.toNat = s.sp.toNat + 1 ∧ t.stack[s.sp.toNat]? = some s.pc ∧
      ∀ j < 16, j ≠ s.sp.toNat → t.stack[j]? = s.stack[j]?)

/-- The return lands after the call and the stack pointer is back (R111, R113; the source's property L1-5), wherever the
called code has left PC. -/
def Obligations.CallThenRetReturnsAfterTheCall : Prop :=
  ∀ (s : State) (nnn : Addr) (p : Word), s.sp.toNat < 16 → ∃ t : State, exec (.call nnn) s = .next t ∧
    exec .ret { t with pc := p } = .next { s with stack := t.stack, pc := s.pc + 2 }

/-- The model's own choice (log entry 5, not a rule of the spec): in a state whose SP is 17 to 31, which R28 says is never
reached, CALL and RET stop by name. -/
def Obligations.CallAndRetStopWhereNoStackEntryExists : Prop :=
  ∀ (s : State) (nnn : Addr), 16 < s.sp.toNat →
    exec (.call nnn) s = .fault .stackIndexRange ∧ exec .ret s = .fault .stackIndexRange

/-- R112 JP, R118 JP V0: only PC changes. -/
def Obligations.JumpsSetPcOnly : Prop :=
  DecodesTo 0x1000 0xF000 (fun w => .jp (fieldNNN w)) ∧ DecodesTo 0xB000 0xF000 (fun w => .jpV0 (fieldNNN w)) ∧
  ∀ (s : State) (nnn : Addr),
    (∃ t, exec (.jp nnn) s = .next t ∧ t = { s with pc := t.pc } ∧ t.pc.toNat = nnn.toNat) ∧
    (∃ t, exec (.jpV0 nnn) s = .next t ∧ t = { s with pc := t.pc } ∧ t.pc.toNat = nnn.toNat + (s.reg 0).toNat)

/-- R114 SE Vx, byte; R115 SNE Vx, byte: only PC changes. -/
def Obligations.ImmediateSkips : Prop :=
  DecodesTo 0x3000 0xF000 (fun w => .seImm (fieldX w) (fieldKK w)) ∧
  DecodesTo 0x4000 0xF000 (fun w => .sneImm (fieldX w) (fieldKK w)) ∧
  ∀ (s : State) (x : Reg) (kk : Byte),
    exec (.seImm x kk) s = .next { s with pc := s.pc + (if s.reg x = kk then 4 else 2) } ∧
    exec (.sneImm x kk) s = .next { s with pc := s.pc + (if s.reg x ≠ kk then 4 else 2) }

/-- R116 SE Vx, Vy; R117 SNE Vx, Vy: only PC changes. -/
def Obligations.RegisterSkips : Prop :=
  DecodesTo 0x5000 0xF00F (fun w => .seReg (fieldX w) (fieldY w)) ∧
  DecodesTo 0x9000 0xF00F (fun w => .sneReg (fieldX w) (fieldY w)) ∧
  ∀ (s : State) (x y : Reg),
    exec (.seReg x y) s = .next { s with pc := s.pc + (if s.reg x = s.reg y then 4 else 2) } ∧
    exec (.sneReg x y) s = .next { s with pc := s.pc + (if s.reg x ≠ s.reg y then 4 else 2) }

/-! ### Register loads and the ALU -/

/-- R141, R142, R143: the loads and the add without a flag; of the registers only `V[x]` changes, VF included unless it is
`V[x]`. -/
def Obligations.LoadsAndImmediateAdd : Prop :=
  DecodesTo 0x6000 0xF000 (fun w => .ldImm (fieldX w) (fieldKK w)) ∧
  DecodesTo 0x7000 0xF000 (fun w => .addImm (fieldX w) (fieldKK w)) ∧
  DecodesTo 0x8000 0xF00F (fun w => .ldReg (fieldX w) (fieldY w)) ∧
  ∀ (s : State) (x y : Reg) (kk : Byte),
    (∃ t, exec (.ldImm x kk) s = .next t ∧ OnlyRegs s t [x] ∧ t.pc = s.pc + 2 ∧ t.reg x = kk) ∧
    (∃ t, exec (.addImm x kk) s = .next t ∧ OnlyRegs s t [x] ∧ t.pc = s.pc + 2 ∧
      (t.reg x).toNat = ((s.reg x).toNat + kk.toNat) % 256) ∧
    (∃ t, exec (.ldReg x y) s = .next t ∧ OnlyRegs s t [x] ∧ t.pc = s.pc + 2 ∧ t.reg x = s.reg y)

/-- R144, R145, R146: bit by bit, with no flag. -/
def Obligations.LogicIsBitwiseWithoutFlags : Prop :=
  DecodesTo 0x8001 0xF00F (fun w => .orReg (fieldX w) (fieldY w)) ∧
  DecodesTo 0x8002 0xF00F (fun w => .andReg (fieldX w) (fieldY w)) ∧
  DecodesTo 0x8003 0xF00F (fun w => .xorReg (fieldX w) (fieldY w)) ∧
  ∀ (s : State) (x y : Reg),
    (∃ t, exec (.orReg x y) s = .next t ∧ OnlyRegs s t [x] ∧ t.pc = s.pc + 2 ∧
      ∀ b, (t.reg x).getLsbD b = ((s.reg x).getLsbD b || (s.reg y).getLsbD b)) ∧
    (∃ t, exec (.andReg x y) s = .next t ∧ OnlyRegs s t [x] ∧ t.pc = s.pc + 2 ∧
      ∀ b, (t.reg x).getLsbD b = ((s.reg x).getLsbD b && (s.reg y).getLsbD b)) ∧
    (∃ t, exec (.xorReg x y) s = .next t ∧ OnlyRegs s t [x] ∧ t.pc = s.pc + 2 ∧
      ∀ b, (t.reg x).getLsbD b = ((s.reg x).getLsbD b != (s.reg y).getLsbD b))

/-- R147 ADD Vx, Vy: the sum modulo 256 in `V[x]`, the carry in VF unless VF is `V[x]`. -/
def Obligations.AddSetsCarry : Prop :=
  DecodesTo 0x8004 0xF00F (fun w => .addReg (fieldX w) (fieldY w)) ∧
  ∀ (s : State) (x y : Reg), ∃ t, exec (.addReg x y) s = .next t ∧ OnlyRegs s t [x, VF] ∧ t.pc = s.pc + 2 ∧
    (t.reg x).toNat = ((s.reg x).toNat + (s.reg y).toNat) % 256 ∧
    (x ≠ VF → (t.reg VF).toNat = if (s.reg x).toNat + (s.reg y).toNat > 255 then 1 else 0)

/-- R148 SUB and R150 SUBN (the spec's decision D31): the difference modulo 256 in `V[x]`, not-borrow (strictly greater) in VF unless VF is
`V[x]`. -/
def Obligations.SubtractionsSetNotBorrow : Prop :=
  DecodesTo 0x8005 0xF00F (fun w => .sub (fieldX w) (fieldY w)) ∧
  DecodesTo 0x8007 0xF00F (fun w => .subn (fieldX w) (fieldY w)) ∧
  ∀ (s : State) (x y : Reg),
    (∃ t, exec (.sub x y) s = .next t ∧ OnlyRegs s t [x, VF] ∧ t.pc = s.pc + 2 ∧
      (t.reg x).toNat = ((s.reg x).toNat + 256 - (s.reg y).toNat) % 256 ∧
      (x ≠ VF → (t.reg VF).toNat = if (s.reg x).toNat > (s.reg y).toNat then 1 else 0)) ∧
    (∃ t, exec (.subn x y) s = .next t ∧ OnlyRegs s t [x, VF] ∧ t.pc = s.pc + 2 ∧
      (t.reg x).toNat = ((s.reg y).toNat + 256 - (s.reg x).toNat) % 256 ∧
      (x ≠ VF → (t.reg VF).toNat = if (s.reg y).toNat > (s.reg x).toNat then 1 else 0))

/-- R149 SHR and R151 SHL (the spec's decision D9): `V[x]` shifted in place whatever `y` is, the bit shifted out in VF unless VF is `V[x]`. -/
def Obligations.ShiftsSetTheBitShiftedOut : Prop :=
  DecodesTo 0x8006 0xF00F (fun w => .shr (fieldX w) (fieldY w)) ∧
  DecodesTo 0x800E 0xF00F (fun w => .shl (fieldX w) (fieldY w)) ∧
  ∀ (s : State) (x y : Reg),
    (∃ t, exec (.shr x y) s = .next t ∧ OnlyRegs s t [x, VF] ∧ t.pc = s.pc + 2 ∧
      (t.reg x).toNat = (s.reg x).toNat / 2 ∧ (x ≠ VF → (t.reg VF).toNat = (s.reg x).toNat % 2)) ∧
    (∃ t, exec (.shl x y) s = .next t ∧ OnlyRegs s t [x, VF] ∧ t.pc = s.pc + 2 ∧
      (t.reg x).toNat = (s.reg x).toNat * 2 % 256 ∧ (x ≠ VF → (t.reg VF).toNat = (s.reg x).toNat / 128))

/-- R152's table (the spec's decision D8): VF after a flag-writing 8xy_ instruction that names VF, from its value `f` at the start of the step. -/
def Obligations.VFAsOperandOfTheFlagWriters : Prop :=
  ∀ (s : State) (x y : Reg), x ≠ VF → y ≠ VF →
    (∃ t, exec (.addReg VF y) s = .next t ∧ (t.reg VF).toNat = ((s.reg VF).toNat + (s.reg y).toNat) % 256) ∧
    (∃ t, exec (.addReg x VF) s = .next t ∧
      (t.reg VF).toNat = (if (s.reg x).toNat + (s.reg VF).toNat > 255 then 1 else 0) ∧
      (t.reg x).toNat = ((s.reg x).toNat + (s.reg VF).toNat) % 256) ∧
    (∃ t, exec (.addReg VF VF) s = .next t ∧ (t.reg VF).toNat = 2 * (s.reg VF).toNat % 256) ∧
    (∃ t, exec (.sub VF y) s = .next t ∧ (t.reg VF).toNat = ((s.reg VF).toNat + 256 - (s.reg y).toNat) % 256) ∧
    (∃ t, exec (.sub x VF) s = .next t ∧
      (t.reg VF).toNat = (if (s.reg x).toNat > (s.reg VF).toNat then 1 else 0) ∧
      (t.reg x).toNat = ((s.reg x).toNat + 256 - (s.reg VF).toNat) % 256) ∧
    (∃ t, exec (.sub VF VF) s = .next t ∧ (t.reg VF).toNat = 0) ∧
    (∀ z, ∃ t, exec (.shr VF z) s = .next t ∧ (t.reg VF).toNat = (s.reg VF).toNat / 2) ∧
    (∃ t, exec (.subn VF y) s = .next t ∧ (t.reg VF).toNat = ((s.reg y).toNat + 256 - (s.reg VF).toNat) % 256) ∧
    (∃ t, exec (.subn x VF) s = .next t ∧
      (t.reg VF).toNat = (if (s.reg VF).toNat > (s.reg x).toNat then 1 else 0) ∧
      (t.reg x).toNat = ((s.reg VF).toNat + 256 - (s.reg x).toNat) % 256) ∧
    (∃ t, exec (.subn VF VF) s = .next t ∧ (t.reg VF).toNat = 0) ∧
    (∀ z, ∃ t, exec (.shl VF z) s = .next t ∧ (t.reg VF).toNat = (s.reg VF).toNat * 2 % 256)

/-- R153 RND: the step's byte `rnd` masked, for every byte the host may supply. That the byte is the head of `rndIn`, and
some byte (the free value) where that list is empty, is the model's choice, log entry 4. -/
def Obligations.RndMasksTheStepsByte : Prop :=
  DecodesTo 0xC000 0xF000 (fun w => .rnd (fieldX w) (fieldKK w)) ∧
  ∀ (s : State) (x : Reg) (kk : Byte), ∃ (r : Byte) (t : State), exec (.rnd x kk) s = .next t ∧
    OnlyRegs s t [x] ∧ t.pc = s.pc + 2 ∧ (∀ b, (t.reg x).getLsbD b = (r.getLsbD b && kk.getLsbD b)) ∧
    ∀ q qs, s.rndIn = q :: qs → r = q

/-- R44 (the spec's decision D15): `STEP(rnd)` uses its byte in an Cxkk, and ignores it in every other step: there the byte given makes no
difference. -/
def Obligations.StepUsesItsByteInRndOnly : Prop :=
  (∀ (s : State) (r : Byte) (x : Reg) (kk : Byte), s.fetchable → decodeWord s.wordAtPc = .ok (.rnd x kk) →
    ∃ t, opStep r s = .next t ∧ t.reg x = r &&& kk) ∧
  (∀ (s : State) (r r' : Byte), (¬ ∃ x kk, decodeWord s.wordAtPc = .ok (.rnd x kk)) → opStep r s = opStep r' s)

/-! ### Display -/

/-- R34, which the spec marks as its own inference from R33: where `Pix(r, c)` lies in the display buffer. -/
def Obligations.PixelAddressing : Prop :=
  ∀ (d : Display) (r : Fin 32) (c : Fin 64), ∃ b : Byte, d[8 * r.val + c.val / 8]? = some b ∧
    d.pix r c = b.getLsbD (7 - c.val % 8)

/-- R171 CLS: every pixel off, `dirty` set, nothing else but PC. -/
def Obligations.ClsClearsEveryPixel : Prop :=
  DecodesTo 0x00E0 0xFFFF (fun _ => .cls) ∧
  ∀ s : State, ∃ t, exec .cls s = .next t ∧ t = { s with disp := t.disp, dirty := true, pc := s.pc + 2 } ∧
    (∀ (b : Nat) (h : b < 256), t.disp[b] = 0) ∧ (∀ r c, t.disp.pix r c = false)

/-- R174 DRW (with R170, R172, R173; the spec's decisions D8, D12, D2): every pixel of the display after the draw is its value before, inverted exactly
where the sprite sets it; VF says whether a set pixel was on; memory, I and every other register are unchanged. Under
MEM_OOB = fault a sprite byte above 0xFFF raises AddressRange and nothing is drawn. -/
def Obligations.DrawInvertsTheSpritesPixels : Prop :=
  DecodesTo 0xD000 0xF000 (fun w => .drw (fieldX w) (fieldY w) (fieldN w).toNat) ∧
  ∀ (s : State) (x y : Reg) (n : Nat), n ≤ 15 →
    (s.outOfRange s.I.toNat n → exec (.drw x y n) s = .next { s with fault := s.faultAfter .addressRange }) ∧
    (¬ s.outOfRange s.I.toNat n → ∃ t, exec (.drw x y n) s = .next t ∧
      t = { s with v := t.v, disp := t.disp, dirty := true, pc := s.pc + 2 } ∧
      (∀ z, z ≠ VF → t.reg z = s.reg z) ∧ (∀ a, t.mem.read a = s.mem.read a) ∧
      (∀ r c, t.disp.pix r c = (s.disp.pix r c != spriteSets s x y n r c)) ∧
      (t.reg VF = 0 ∨ t.reg VF = 1) ∧
      (t.reg VF = 1 ↔ ∃ r c, s.disp.pix r c = true ∧ spriteSets s x y n r c = true))

/-- R176, which the spec marks as its own inference from R174: the same sprite drawn twice at the same place restores the display. The first draw reports a collision exactly
if some pixel the sprite sets was on before it, the second exactly if some such pixel was off before the first. -/
def Obligations.DrawingTwiceRestoresTheDisplay : Prop :=
  ∀ (s s' t : State) (x y x' y' : Reg) (n : Nat), n ≤ 15 → ¬ s.outOfRange s.I.toNat n →
    exec (.drw x y n) s = .next t →
    s'.disp = t.disp → s'.mem = t.mem → s'.I = t.I → s'.cfg = t.cfg → s'.reg x' = s.reg x → s'.reg y' = s.reg y →
    (t.reg VF = 1 ↔ ∃ r c, s.disp.pix r c = true ∧ spriteSets s x y n r c = true) ∧
    ∃ u, exec (.drw x' y' n) s' = .next u ∧ u.disp = s.disp ∧
      (u.reg VF = 1 ↔ ∃ r c, s.disp.pix r c = false ∧ spriteSets s x y n r c = true) ∧
      (t.reg VF = 0 → (∃ r c, spriteSets s x y n r c = true) → u.reg VF = 1)

/-! ### Keys and timers -/

/-- R192 SKP and R193 SKNP, with the key index of R191 (the spec's decision D3): only PC changes; under KEY_OOB = fault a value above 0xF raises
KeyIndexRange. -/
def Obligations.KeySkips : Prop :=
  DecodesTo 0xE09E 0xF0FF (fun w => .skp (fieldX w)) ∧ DecodesTo 0xE0A1 0xF0FF (fun w => .sknp (fieldX w)) ∧
  ∀ (s : State) (x : Reg),
    (s.noSuchKey x →
      exec (.skp x) s = .next { s with fault := s.faultAfter .keyIndexRange } ∧
      exec (.sknp x) s = .next { s with fault := s.faultAfter .keyIndexRange }) ∧
    (¬ s.noSuchKey x →
      exec (.skp x) s =
        .next { s with pc := s.pc + (if s.keys.getLsbD ((s.reg x).toNat % 16) = true then 4 else 2) } ∧
      exec (.sknp x) s =
        .next { s with pc := s.pc + (if s.keys.getLsbD ((s.reg x).toNat % 16) = false then 4 else 2) })

/-- R197 LD Vx, K and R198: with no key pressed PC stays and `key_wait` is set; else the highest pressed key goes to
`V[x]`. -/
def Obligations.KeyWaitTakesTheHighestKey : Prop :=
  DecodesTo 0xF00A 0xF0FF (fun w => .ldVxK (fieldX w)) ∧
  ∀ (s : State) (x : Reg),
    ((∀ k < 16, s.keys.getLsbD k = false) → exec (.ldVxK x) s = .next { s with keyWait := true }) ∧
    (∀ k < 16, s.keys.getLsbD k = true → (∀ j < 16, k < j → s.keys.getLsbD j = false) →
      ∃ t, exec (.ldVxK x) s = .next t ∧ t = { s with v := t.v, keyWait := false, pc := s.pc + 2 } ∧
        (t.reg x).toNat = k ∧ ∀ z, z ≠ x → t.reg z = s.reg z)

/-- R194 LD Vx, DT; R195 LD DT, Vx; R196 LD ST, Vx (the spec's decision D26): the instruction's own effect, before the end of the step. -/
def Obligations.TimerTransfers : Prop :=
  DecodesTo 0xF007 0xF0FF (fun w => .ldVxDT (fieldX w)) ∧ DecodesTo 0xF015 0xF0FF (fun w => .ldDTVx (fieldX w)) ∧
  DecodesTo 0xF018 0xF0FF (fun w => .ldSTVx (fieldX w)) ∧
  ∀ (s : State) (x : Reg),
    (∃ t, exec (.ldVxDT x) s = .next t ∧ OnlyRegs s t [x] ∧ t.pc = s.pc + 2 ∧ t.reg x = s.dt) ∧
    exec (.ldDTVx x) s = .next { s with dt := s.reg x, pc := s.pc + 2 } ∧
    exec (.ldSTVx x) s = .next { s with st := s.reg x, pc := s.pc + 2 }

/-- R208, which the spec marks as its own inference: a timer written in a step is decremented in that step under per_step, and the Fx07 of the next step reads
`v - 1` (0 if `v` is 0). -/
def Obligations.TimerWrittenInAStepIsDecrementedInIt : Prop :=
  ∀ (s : State) (x : Reg), s.cfg.timerPolicy = .perStep → s.fetchable →
    (decodeWord s.wordAtPc = .ok (.ldDTVx x) → ∃ t, step s = .next t ∧ t.dt.toNat = (s.reg x).toNat - 1 ∧
      t.st.toNat = s.st.toNat - 1 ∧ t.pc = s.pc + 2 ∧
      ∀ z, t.fetchable → decodeWord t.wordAtPc = .ok (.ldVxDT z) →
        ∃ u, step t = .next u ∧ (u.reg z).toNat = (s.reg x).toNat - 1) ∧
    (decodeWord s.wordAtPc = .ok (.ldSTVx x) → ∃ t, step s = .next t ∧ t.st.toNat = (s.reg x).toNat - 1 ∧
      t.dt.toNat = s.dt.toNat - 1 ∧ t.pc = s.pc + 2)

/-! ### Index register and memory -/

/-- R220 LD I, R222 ADD I, R223 LD F (the spec's decisions D10, D24). -/
def Obligations.IndexRegisterWrites : Prop :=
  DecodesTo 0xA000 0xF000 (fun w => .ldI (fieldNNN w)) ∧ DecodesTo 0xF01E 0xF0FF (fun w => .addI (fieldX w)) ∧
  DecodesTo 0xF029 0xF0FF (fun w => .ldF (fieldX w)) ∧
  ∀ (s : State) (x : Reg) (nnn : Addr),
    (∃ t, exec (.ldI nnn) s = .next t ∧ t = { s with I := t.I, pc := s.pc + 2 } ∧ t.I.toNat = nnn.toNat) ∧
    (∃ t, exec (.addI x) s = .next t ∧ t = { s with v := t.v, I := t.I, pc := s.pc + 2 } ∧
      t.I.toNat = (s.I.toNat + (s.reg x).toNat) % 65536 ∧
      (t.reg VF).toNat = (if s.I.toNat + (s.reg x).toNat > 0xFFF then 1 else 0) ∧
      ∀ z, z ≠ VF → t.reg z = s.reg z) ∧
    (∃ t, exec (.ldF x) s = .next t ∧ t = { s with I := t.I, pc := s.pc + 2 } ∧ t.I.toNat = 5 * (s.reg x).toNat)

/-- R224 LD B (the spec's decision D11): the three bytes from I on hold the decimal digits, hundreds first, and every other byte of memory reads as
before. -/
def Obligations.BcdStoresThreeDigits : Prop :=
  DecodesTo 0xF033 0xF0FF (fun w => .ldB (fieldX w)) ∧
  ∀ (s : State) (x : Reg),
    (s.outOfRange s.I.toNat 3 → exec (.ldB x) s = .next { s with fault := s.faultAfter .addressRange }) ∧
    (¬ s.outOfRange s.I.toNat 3 → ∃ t, exec (.ldB x) s = .next t ∧
      t = { s with mem := t.mem, pc := s.pc + 2 } ∧
      (t.mem.read (s.I.toNat % 4096)).toNat = (s.reg x).toNat / 100 ∧
      (t.mem.read ((s.I.toNat + 1) % 4096)).toNat = (s.reg x).toNat / 10 % 10 ∧
      (t.mem.read ((s.I.toNat + 2) % 4096)).toNat = (s.reg x).toNat % 10 ∧
      ∀ a, (∀ k < 3, a ≠ (s.I.toNat + k) % 4096) → t.mem.read a = s.mem.read a)

/-- R225 LD [I], Vx (the spec's decision D28): byte `I + i` holds `V[i]` for i in 0..x, I moves past the block, and every other byte of memory reads
as before. -/
def Obligations.StoreBlockStoresV0ToVx : Prop :=
  DecodesTo 0xF055 0xF0FF (fun w => .ldMemVx (fieldX w)) ∧
  ∀ (s : State) (x : Reg),
    (s.outOfRange s.I.toNat (x.val + 1) →
      exec (.ldMemVx x) s = .next { s with fault := s.faultAfter .addressRange }) ∧
    (¬ s.outOfRange s.I.toNat (x.val + 1) → ∃ t, exec (.ldMemVx x) s = .next t ∧
      t = { s with mem := t.mem, I := t.I, pc := s.pc + 2 } ∧ t.I.toNat = (s.I.toNat + x.val + 1) % 65536 ∧
      (∀ i : Reg, i ≤ x → t.mem.read ((s.I.toNat + i.val) % 4096) = s.reg i) ∧
      ∀ a, (∀ k ≤ x.val, a ≠ (s.I.toNat + k) % 4096) → t.mem.read a = s.mem.read a)

/-- R226 LD Vx, [I] (the spec's decision D28): `V[i]` holds byte `I + i` for i in 0..x, the registers above x and all of memory are unchanged, I
moves past the block. -/
def Obligations.LoadBlockLoadsV0ToVx : Prop :=
  DecodesTo 0xF065 0xF0FF (fun w => .ldVxMem (fieldX w)) ∧
  ∀ (s : State) (x : Reg),
    (s.outOfRange s.I.toNat (x.val + 1) →
      exec (.ldVxMem x) s = .next { s with fault := s.faultAfter .addressRange }) ∧
    (¬ s.outOfRange s.I.toNat (x.val + 1) → ∃ t, exec (.ldVxMem x) s = .next t ∧
      t = { s with v := t.v, I := t.I, pc := s.pc + 2 } ∧ t.I.toNat = (s.I.toNat + x.val + 1) % 65536 ∧
      (∀ i : Reg, i ≤ x → t.reg i = s.mem.read ((s.I.toNat + i.val) % 4096)) ∧
      (∀ i : Reg, x < i → t.reg i = s.reg i) ∧ ∀ a, t.mem.read a = s.mem.read a)

/-- Storing a register block and loading it back from the same I restores the registers (R225, R226, R293), whatever the
registers held in between. -/
def Obligations.StoredBlockLoadsBack : Prop :=
  ∀ (s t u : State) (x : Reg), ¬ s.outOfRange s.I.toNat (x.val + 1) → exec (.ldMemVx x) s = .next t →
    u.mem = t.mem → u.I = s.I → u.cfg = s.cfg →
    ∃ r, exec (.ldVxMem x) u = .next r ∧ (∀ i : Reg, i ≤ x → r.reg i = s.reg i) ∧ r.I = t.I

/-- What an Fx55 has stored at the two bytes after its own word is the word the next step fetches, with no barrier between: a
case of R70, which the spec marks as its own inference from R69 and R90. Fx33, a store over one byte of the next word and
accesses that wrap are in EveryStoredByteIsSeenByTheNextFetch. -/
def Obligations.StoreIsSeenByTheNextFetch : Prop :=
  ∀ (s t : State) (x k l : Reg), s.pc.toNat + 3 ≤ 0xFFF → k ≤ x → l.val = k.val + 1 → l ≤ x →
    s.I.toNat + k.val = s.pc.toNat + 2 → s.I.toNat + x.val ≤ 0xFFF →
    exec (.ldMemVx x) s = .next t → t.endStep.fetch = .ok (s.reg k ++ s.reg l)

/-! ### Reset and the host interface -/

/-- R280, R51 (the spec's decision D17): every piece of state after RESET (for this hardware's FONT parameter, whichever bytes it holds). -/
def Obligations.ResetValues : Prop :=
  ∀ s : State, ∃ t, perform .reset s = .next (t, .none) ∧
    (∀ x, t.reg x = 0) ∧ t.I = 0 ∧ t.pc = 0x200 ∧ t.sp = 0 ∧ (∀ j < 16, t.stack[j]? = some 0) ∧ t.dt = 0 ∧ t.st = 0 ∧
    (∀ (a : Nat) (h : a < 80), t.mem.read a = s.cfg.font[a]) ∧ (∀ a, 80 ≤ a → t.mem.read a = 0) ∧
    (∀ (b : Nat) (h : b < 256), t.disp[b] = 0) ∧ (∀ k < 16, t.keys.getLsbD k = false) ∧ t.dirty = false ∧
    t.keyWait = false ∧ t.fault = 0

/-- R281 (the spec's decision D18): the block comes up as if RESET had just been performed. (`rndIn` and `draws` are the model's own, log entry 4.) -/
def Obligations.PowerOnIsTheResetState : Prop :=
  Host.Core.reset Sys2Proof.core = State.reset ∧ State.reset = opReset State.reset ∧
    ∀ s : State, s.cfg = hardware → opReset s = { State.reset with rndIn := s.rndIn, draws := s.draws }

/-- R282 LOAD (the spec's decision D19): an image of more than 3584 bytes changes nothing; else the reset state with the image from 0x200 on. -/
def Obligations.LoadChecksThenResetsThenCopies : Prop :=
  ∀ (s : State) (image : List Byte),
    (3584 < image.length → perform (.load image) s = .next (s, .loaded .programTooLarge)) ∧
    (image.length ≤ 3584 → ∃ t, perform (.load image) s = .next (t, .loaded .ok) ∧
      t = { opReset s with mem := t.mem } ∧
      (∀ (k : Nat) (h : k < image.length), t.mem.read (0x200 + k) = image[k]) ∧
      (∀ a, a < 0x200 ∨ 0x200 + image.length ≤ a → t.mem.read a = (opReset s).mem.read a))

/-- R45 SET_KEYS, R46 READ_DISPLAY, R47 CLEAR_DIRTY, R49 READ_STATUS. -/
def Obligations.HostReadsAndWrites : Prop :=
  ∀ (s : State) (k : BitVec 16),
    (∃ t, perform (.setKeys k) s = .next (t, .none) ∧ t = { s with keys := t.keys } ∧
      ∀ j < 16, t.key j = k.getLsbD j) ∧
    perform .readDisplay s = .next (s, .display s.disp s.dirty) ∧
    perform .clearDirty s = .next ({ s with dirty := false }, .none) ∧
    perform .readStatus s = .next (s, .status s.fault s.keyWait s.dt s.st)

/-- R207 TICK (the spec's decisions D13, D35): under tick60 the decrement of R206 and nothing else; under per_step it is refused. -/
def Obligations.TickCountsTimersUnderTick60 : Prop :=
  ∀ s : State,
    (s.cfg.timerPolicy = .tick60 → ∃ t, perform .tick s = .next (t, .none) ∧
      t = { s with dt := t.dt, st := t.st } ∧ t.dt.toNat = s.dt.toNat - 1 ∧ t.st.toNat = s.st.toNat - 1) ∧
    (s.cfg.timerPolicy = .perStep → perform .tick s = .refused .tickUnderPerStep)

/-- The keys a SET_KEYS (R45) sets are the ones the Fx0A of the next step finds, and it takes the highest (R197, R198): the
first clause of R73, which the spec marks as its own inference from R41. -/
def Obligations.KeysSetBeforeAStepResolveItsWait : Prop :=
  ∀ (s : State) (x : Reg) (keys : BitVec 16) (k : Nat), s.fetchable → decodeWord s.wordAtPc = .ok (.ldVxK x) →
    k < 16 → keys.getLsbD k = true → (∀ j < 16, k < j → keys.getLsbD j = false) → ∀ rnd : Byte,
    ∃ t u, perform (.setKeys keys) s = .next (t, .none) ∧ perform (.step rnd) t = .next (u, .none) ∧
      (u.reg x).toNat = k ∧ u.pc = s.pc + 2 ∧ u.keyWait = false ∧ u.keys = keys

/-! ### Invariants and whole-run claims -/

/-- The reset state satisfies the invariant. -/
def Obligations.ResetSatisfiesTheInvariant : Prop := State.reset.Inv

/-- Every step keeps the invariant: SP counts 0 to 16 entries (R28), `fault` holds a code of R251 (6 and 7 are never
written), memory keeps its canonical form. -/
def Obligations.EveryStepKeepsTheInvariant : Prop :=
  ∀ s t : State, s.Inv → step s = .next t → t.Inv

/-- Every operation of the host keeps the invariant (R40). -/
def Obligations.EveryHostOperationKeepsTheInvariant : Prop :=
  ∀ (op : HostOp) (s t : State) (reply : HostReply), s.Inv → perform op s = .next (t, reply) → t.Inv

/-- No condition is fatal to the machine (R255): in a state that satisfies the invariant every number of steps ends in a
next state. -/
def Obligations.NoRunStops : Prop :=
  ∀ (s : State) (n : Nat), s.Inv → ∃ t, Host.Core.run Sys2Proof.core n s = .next t ∧ t.Inv

/-- *Parked* (R298, R112): at a jump to itself every further step changes only the timers and `key_wait`, and under per_step the
timers run down to 0. -/
def Obligations.ParkedMachineChangesOnlyTimers : Prop :=
  ∀ (s : State) (n : Nat), s.parked → ∃ t, Host.Core.run Sys2Proof.core n s = .next t ∧ t.parked ∧
    t = { s with dt := t.dt, st := t.st, keyWait := t.keyWait, rndIn := t.rndIn, draws := t.draws } ∧
    (s.cfg.timerPolicy = .perStep → t.dt.toNat = s.dt.toNat - n ∧ t.st.toNat = s.st.toNat - n)

/-! ### Stores and fetches, every form -/

/-- R70, which the spec marks as its own inference from R69 and R90, for both storing instructions and every address: after a
step that runs an Fx33 or Fx55, each byte of the word the next step fetches is the byte stored there, if one was, and else
what it was before. -/
def Obligations.EveryStoredByteIsSeenByTheNextFetch : Prop :=
  ∀ (s : State) (i : Instr) (bytes : List Byte), s.fetchable → decodeWord s.wordAtPc = .ok i →
    ((∃ x, i = .ldB x ∧ bytes = bcdDigits (s.reg x)) ∨ (∃ x, i = .ldMemVx x ∧ bytes = s.regBlock x)) →
    ¬ s.outOfRange s.I.toNat bytes.length →
    ∃ t, step s = .next t ∧ (t.fetchable → ∃ hi lo : Byte, t.fetch = .ok (hi ++ lo) ∧
      ∀ (j : Nat) (b : Byte), (j = 0 ∧ b = hi) ∨ (j = 1 ∧ b = lo) →
        (∀ k < bytes.length, (t.pc.toNat + j) % 4096 = (s.I.toNat + k) % 4096 → bytes[k]? = some b) ∧
        ((∀ k < bytes.length, (t.pc.toNat + j) % 4096 ≠ (s.I.toNat + k) % 4096) →
          b = s.mem.read ((t.pc.toNat + j) % 4096)))
end

