-- ==== Sys2Proof/Laws/Decode.lean ====
section
/-! SUPPORT. Words as numbers, the fields of an encoded word (R81, R82), and what a masked word says of its fields (R84). -/

namespace Sys2Proof

/-! ### Words and fields as numbers -/

theorem toNat_append_lt {n m : Nat} (a : BitVec n) (b : BitVec m) : (a ++ b).toNat = a.toNat * 2 ^ m + b.toNat := by
  rw [BitVec.toNat_append, ← Nat.shiftLeft_add_eq_or_of_lt b.isLt, Nat.shiftLeft_eq]

theorem toNat_nib (r : Reg) : (nib r).toNat = r.val := rfl

theorem toNat_wordA (op : BitVec 4) (a : Addr) : (wordA op a).toNat = op.toNat * 4096 + a.toNat :=
  toNat_append_lt op a

theorem toNat_wordXK (op : BitVec 4) (x : Reg) (kk : Byte) :
    (wordXK op x kk).toNat = (op.toNat * 16 + x.val) * 256 + kk.toNat :=
  (toNat_append_lt (op ++ nib x) kk).trans (by
    rw [toNat_append_lt, toNat_nib]; simp only [Nat.reducePow])

theorem toNat_wordXYN (op : BitVec 4) (x y : Reg) (n : BitVec 4) :
    (wordXYN op x y n).toNat = ((op.toNat * 16 + x.val) * 16 + y.val) * 16 + n.toNat :=
  (toNat_append_lt (op ++ nib x ++ nib y) n).trans (by
    rw [toNat_append_lt, toNat_append_lt, toNat_nib, toNat_nib]; simp only [Nat.reducePow])

theorem toNat_fieldOp (w : Word) : (fieldOp w).toNat = w.toNat / 4096 := by
  have := w.isLt
  simp only [fieldOp, BitVec.extractLsb'_toNat, Nat.shiftRight_eq_div_pow]; omega

theorem val_fieldX (w : Word) : (fieldX w).val = w.toNat / 256 % 16 := by
  show (w.extractLsb' 8 4).toNat = _
  simp only [BitVec.extractLsb'_toNat, Nat.shiftRight_eq_div_pow]

theorem val_fieldY (w : Word) : (fieldY w).val = w.toNat / 16 % 16 := by
  show (w.extractLsb' 4 4).toNat = _
  simp only [BitVec.extractLsb'_toNat, Nat.shiftRight_eq_div_pow]

theorem toNat_fieldN (w : Word) : (fieldN w).toNat = w.toNat % 16 := by
  simp [fieldN, BitVec.extractLsb'_toNat]

theorem toNat_fieldKK (w : Word) : (fieldKK w).toNat = w.toNat % 256 := by
  simp [fieldKK, BitVec.extractLsb'_toNat]

theorem toNat_fieldNNN (w : Word) : (fieldNNN w).toNat = w.toNat % 4096 := by
  simp [fieldNNN, BitVec.extractLsb'_toNat]

/-! ### The fields of an encoded word -/

@[simp] theorem fieldOp_wordA (op : BitVec 4) (a : Addr) : fieldOp (wordA op a) = op := by
  apply BitVec.eq_of_toNat_eq; rw [toNat_fieldOp, toNat_wordA]; omega

@[simp] theorem fieldNNN_wordA (op : BitVec 4) (a : Addr) : fieldNNN (wordA op a) = a := by
  apply BitVec.eq_of_toNat_eq; rw [toNat_fieldNNN, toNat_wordA]; omega

@[simp] theorem fieldOp_wordXK (op : BitVec 4) (x : Reg) (kk : Byte) : fieldOp (wordXK op x kk) = op := by
  apply BitVec.eq_of_toNat_eq; rw [toNat_fieldOp, toNat_wordXK]; omega

@[simp] theorem fieldX_wordXK (op : BitVec 4) (x : Reg) (kk : Byte) : fieldX (wordXK op x kk) = x := by
  apply Fin.ext; rw [val_fieldX, toNat_wordXK]; omega

@[simp] theorem fieldKK_wordXK (op : BitVec 4) (x : Reg) (kk : Byte) : fieldKK (wordXK op x kk) = kk := by
  apply BitVec.eq_of_toNat_eq; rw [toNat_fieldKK, toNat_wordXK]; omega

@[simp] theorem fieldOp_wordXYN (op : BitVec 4) (x y : Reg) (n : BitVec 4) : fieldOp (wordXYN op x y n) = op := by
  apply BitVec.eq_of_toNat_eq; rw [toNat_fieldOp, toNat_wordXYN]; omega

@[simp] theorem fieldX_wordXYN (op : BitVec 4) (x y : Reg) (n : BitVec 4) : fieldX (wordXYN op x y n) = x := by
  apply Fin.ext; rw [val_fieldX, toNat_wordXYN]; omega

@[simp] theorem fieldY_wordXYN (op : BitVec 4) (x y : Reg) (n : BitVec 4) : fieldY (wordXYN op x y n) = y := by
  apply Fin.ext; rw [val_fieldY, toNat_wordXYN]; omega

@[simp] theorem fieldN_wordXYN (op : BitVec 4) (x y : Reg) (n : BitVec 4) : fieldN (wordXYN op x y n) = n := by
  apply BitVec.eq_of_toNat_eq; rw [toNat_fieldN, toNat_wordXYN]; omega

/-! ### A word is made of its fields -/

theorem wordA_fields (w : Word) : wordA (fieldOp w) (fieldNNN w) = w := by
  apply BitVec.eq_of_toNat_eq; rw [toNat_wordA, toNat_fieldOp, toNat_fieldNNN]; omega

theorem wordXK_fields (w : Word) : wordXK (fieldOp w) (fieldX w) (fieldKK w) = w := by
  apply BitVec.eq_of_toNat_eq; rw [toNat_wordXK, toNat_fieldOp, val_fieldX, toNat_fieldKK]; omega

theorem wordXYN_fields (w : Word) : wordXYN (fieldOp w) (fieldX w) (fieldY w) (fieldN w) = w := by
  apply BitVec.eq_of_toNat_eq
  rw [toNat_wordXYN, toNat_fieldOp, val_fieldX, val_fieldY, toNat_fieldN]; omega

/-- Two words with the same fields `op`, `x`, `y`, `n` are the same word. -/
theorem word_ext {w v : Word} (ho : fieldOp w = fieldOp v) (hx : fieldX w = fieldX v) (hy : fieldY w = fieldY v)
    (hn : fieldN w = fieldN v) : w = v := by
  rw [← wordXYN_fields w, ← wordXYN_fields v, ho, hx, hy, hn]

theorem fieldN_of_fieldKK {w v : Word} (h : fieldKK w = fieldKK v) : fieldN w = fieldN v ∧ fieldY w = fieldY v := by
  have := congrArg BitVec.toNat h
  rw [toNat_fieldKK, toNat_fieldKK] at this
  refine ⟨BitVec.eq_of_toNat_eq ?_, Fin.ext ?_⟩
  · rw [toNat_fieldN, toNat_fieldN]; omega
  · rw [val_fieldY, val_fieldY]; omega

/-! ### Masks -/

theorem fieldOp_and (w m : Word) : fieldOp (w &&& m) = fieldOp w &&& fieldOp m := BitVec.extractLsb'_and
theorem fieldN_and (w m : Word) : fieldN (w &&& m) = fieldN w &&& fieldN m := BitVec.extractLsb'_and
theorem fieldKK_and (w m : Word) : fieldKK (w &&& m) = fieldKK w &&& fieldKK m := BitVec.extractLsb'_and
theorem fieldX_and (w m : Word) : nib (fieldX (w &&& m)) = nib (fieldX w) &&& nib (fieldX m) := BitVec.extractLsb'_and
theorem fieldY_and (w m : Word) : nib (fieldY (w &&& m)) = nib (fieldY w) &&& nib (fieldY m) := BitVec.extractLsb'_and

theorem nib_inj {a b : Reg} (h : nib a = nib b) : a = b := by
  have := congrArg BitVec.toNat h
  exact Fin.ext this

theorem and_ones4 (a : BitVec 4) : a &&& 15#4 = a := BitVec.and_allOnes
theorem and_ones8 (a : BitVec 8) : a &&& 255#8 = a := BitVec.and_allOnes

/-- A word under a mask is a pattern exactly if its fields under the mask's fields are the pattern's. -/
theorem mask_iff (w m p : Word) : w &&& m = p ↔
    fieldOp w &&& fieldOp m = fieldOp p ∧ nib (fieldX w) &&& nib (fieldX m) = nib (fieldX p) ∧
    nib (fieldY w) &&& nib (fieldY m) = nib (fieldY p) ∧ fieldN w &&& fieldN m = fieldN p := by
  rw [← fieldOp_and, ← fieldX_and, ← fieldY_and, ← fieldN_and]
  constructor
  · rintro rfl; exact ⟨rfl, rfl, rfl, rfl⟩
  · rintro ⟨ho, hx, hy, hn⟩; exact word_ext ho (nib_inj hx) (nib_inj hy) hn

/-- Mask 0xF000: the family alone. -/
theorem mask_family (w : Word) (op : BitVec 4) : w &&& 0xF000 = wordA op 0 ↔ fieldOp w = op := by
  rw [mask_iff, fieldOp_wordA]
  have e : wordA op 0 = wordXYN op 0 0 0 := by
    apply BitVec.eq_of_toNat_eq; rw [toNat_wordA, toNat_wordXYN]; simp; omega
  rw [e, fieldX_wordXYN, fieldY_wordXYN, fieldN_wordXYN, show fieldOp 0xF000 = 15#4 from rfl, and_ones4,
    show nib (fieldX 0xF000) = 0#4 from rfl, show nib (fieldY 0xF000) = 0#4 from rfl, show fieldN 0xF000 = 0#4 from rfl]
  simp [nib]

/-- Mask 0xF00F: the family and the sub-opcode. -/
theorem mask_family_n (w : Word) (op n : BitVec 4) :
    w &&& 0xF00F = wordXYN op 0 0 n ↔ fieldOp w = op ∧ fieldN w = n := by
  rw [mask_iff, fieldOp_wordXYN, fieldX_wordXYN, fieldY_wordXYN, fieldN_wordXYN,
    show fieldOp 0xF00F = 15#4 from rfl, show nib (fieldX 0xF00F) = 0#4 from rfl,
    show nib (fieldY 0xF00F) = 0#4 from rfl, show fieldN 0xF00F = 15#4 from rfl, and_ones4, and_ones4]
  simp [nib]

/-- Mask 0xF0FF: the family and the low byte. -/
theorem mask_family_kk (w : Word) (op : BitVec 4) (kk : Byte) :
    w &&& 0xF0FF = wordXK op 0 kk ↔ fieldOp w = op ∧ fieldKK w = kk := by
  constructor
  · intro h
    have ho := congrArg fieldOp h
    have hk := congrArg fieldKK h
    rw [fieldOp_and, fieldOp_wordXK, show fieldOp 0xF0FF = 15#4 from rfl, and_ones4] at ho
    rw [fieldKK_and, fieldKK_wordXK, show fieldKK 0xF0FF = 255#8 from rfl, and_ones8] at hk
    exact ⟨ho, hk⟩
  · rintro ⟨ho, hk⟩
    have h2 := fieldN_of_fieldKK (v := wordXK op 0 kk) (hk.trans (fieldKK_wordXK op 0 kk).symm)
    rw [mask_iff, fieldOp_wordXK, fieldX_wordXK, show fieldOp 0xF0FF = 15#4 from rfl,
      show nib (fieldX 0xF0FF) = 0#4 from rfl, show nib (fieldY 0xF0FF) = 15#4 from rfl,
      show fieldN 0xF0FF = 15#4 from rfl, and_ones4, and_ones4, and_ones4, h2.1, h2.2]
    simp [nib, ho]

end Sys2Proof
end

