-- ==== Sys2Proof/Laws/Memory.lean ====
section
/-! SUPPORT. The laws of memory: read after write, the canonical form kept, equal reads give equal memories, and the same
for a block of writes. -/

namespace Sys2Proof.Machine

/-- The reset contents are 0 outside the glyph set (R51). -/
theorem Memory.unlisted_of_ge (a : Nat) (h : 80 ≤ a) : Memory.unlisted a = 0 := by
  simp [Memory.unlisted, h]

/-! ### One byte -/

@[simp] theorem Memory.read_nil (a : Nat) : Memory.read [] a = Memory.unlisted a := rfl

theorem Memory.read_cons (c : Host.Cell) (m : Memory) (a : Nat) :
    Memory.read (c :: m) a = if c.1 = a then c.2 else Memory.read m a := rfl

/-- An address below every listed one is unlisted. -/
theorem Memory.read_of_lt (m : Memory) (a : Nat) (h : ∀ c ∈ m, a < c.1) : m.read a = Memory.unlisted a := by
  induction m with
  | nil => rfl
  | cons c m ih =>
    have hc := h c (by simp)
    rw [Memory.read_cons, if_neg (by omega), ih (fun d hd => h d (by simp [hd]))]

/-- Unlisting an address leaves every other address alone. -/
theorem Memory.read_unlist (m : Memory) (a a' : Nat) :
    (m.unlist a).read a' = if a' = a then Memory.unlisted a' else m.read a' := by
  induction m with
  | nil => simp [Memory.unlist]
  | cons c m ih =>
    by_cases hc : c.1 = a
    · rw [show Memory.unlist (c :: m) a = Memory.unlist m a by simp [Memory.unlist, hc], ih, Memory.read_cons]
      by_cases ha : a' = a
      · simp [ha]
      · simp [ha, show ¬ c.1 = a' by omega]
    · rw [show Memory.unlist (c :: m) a = c :: Memory.unlist m a by simp [Memory.unlist, hc], Memory.read_cons,
        Memory.read_cons, ih]
      by_cases ha : a' = a
      · simp [ha, hc]
      · simp [ha]

/-- A cell put into a memory that does not list its address reads as itself; every other address is alone. -/
theorem Memory.read_insertCell (m : Memory) (a a' : Nat) (b : Byte) (h : ∀ c ∈ m, c.1 ≠ a) :
    (Memory.insertCell a b m).read a' = if a' = a then b else m.read a' := by
  induction m with
  | nil =>
    by_cases ha : a' = a
    · simp [Memory.insertCell, Memory.read_cons, ha]
    · simp [Memory.insertCell, Memory.read_cons, ha, show ¬ a = a' by omega]
  | cons c m ih =>
    have hc := h c (by simp)
    unfold Memory.insertCell
    split
    · rw [Memory.read_cons]
      by_cases ha : a' = a
      · simp [ha]
      · simp [ha, show ¬ a = a' by omega]
    · rw [Memory.read_cons, Memory.read_cons, ih (fun d hd => h d (by simp [hd]))]
      by_cases ha : a' = a
      · simp [ha, hc]
      · simp [ha]

theorem Memory.not_mem_unlist (m : Memory) (a : Nat) : ∀ c ∈ m.unlist a, c.1 ≠ a := by
  intro c hc
  simpa using (List.mem_filter.1 hc).2

/-- Read after write: the written address gives the byte, every other address is alone. It holds of every list of cells,
canonical or not. -/
theorem Memory.read_write (m : Memory) (a a' : Nat) (b : Byte) :
    (m.write a b).read a' = if a' = a then b else m.read a' := by
  unfold Memory.write
  split
  · next hb =>
    rw [Memory.read_unlist]
    by_cases ha : a' = a <;> simp [ha, hb]
  · rw [Memory.read_insertCell _ a a' b (m.not_mem_unlist a), Memory.read_unlist]
    by_cases ha : a' = a <;> simp [ha]

/-- The cells after an insertion. -/
theorem Memory.mem_insertCell {m : Memory} {a : Nat} {b : Byte} {d : Host.Cell} :
    d ∈ Memory.insertCell a b m ↔ d = (a, b) ∨ d ∈ m := by
  induction m with
  | nil => simp [Memory.insertCell]
  | cons c m ih =>
    unfold Memory.insertCell
    split
    · simp
    · simp only [List.mem_cons, ih]; tauto

theorem Memory.rising_insertCell {m : Memory} {a : Nat} (b : Byte) (h : m.Pairwise (fun c d => c.1 < d.1))
    (ha : ∀ c ∈ m, c.1 ≠ a) : (Memory.insertCell a b m).Pairwise (fun c d => c.1 < d.1) := by
  induction m with
  | nil => simp [Memory.insertCell]
  | cons c m ih =>
    have hc := List.pairwise_cons.1 h
    unfold Memory.insertCell
    split
    · next hlt =>
      refine List.pairwise_cons.2 ⟨fun d hd => ?_, h⟩
      rcases List.mem_cons.1 hd with rfl | hd
      · exact hlt
      · exact Nat.lt_trans hlt (hc.1 d hd)
    · next hge =>
      have hne := ha c (by simp)
      refine List.pairwise_cons.2 ⟨fun d hd => ?_, ih hc.2 (fun d hd => ha d (by simp [hd]))⟩
      rcases Memory.mem_insertCell.1 hd with rfl | hd
      · show c.1 < a; omega
      · exact hc.1 d hd

/-- A write inside the address space keeps the canonical form. -/
theorem Memory.wf_write {m : Memory} {a : Nat} (b : Byte) (h : m.wf) (ha : a < 4096) : (m.write a b).wf := by
  have hu : (m.unlist a).wf :=
    ⟨h.1.filter _, fun c hc => h.2 c (List.mem_filter.1 hc).1⟩
  unfold Memory.write
  split
  · exact hu
  · next hb =>
    refine ⟨Memory.rising_insertCell b hu.1 (m.not_mem_unlist a), fun d hd => ?_⟩
    rcases Memory.mem_insertCell.1 hd with rfl | hd
    · exact ⟨ha, hb⟩
    · exact hu.2 d hd

theorem Memory.pairwise_tail_lt {c : Host.Cell} {m : Memory} (h : (c :: m).Pairwise (fun c d => c.1 < d.1)) :
    ∀ d ∈ m, c.1 < d.1 := (List.pairwise_cons.1 h).1

/-- The empty list is canonical: reset memory is. -/
theorem Memory.wf_nil : Memory.wf [] := by decide

/-- Canonical memories that read the same are the same list. -/
theorem Memory.eq_of_read_eq {m m' : Memory} (h : m.wf) (h' : m'.wf) (hr : ∀ a, m.read a = m'.read a) : m = m' := by
  induction m generalizing m' with
  | nil =>
    cases m' with
    | nil => rfl
    | cons d m' =>
      have := hr d.1
      rw [Memory.read_cons, if_pos rfl] at this
      exact absurd this.symm (h'.2 d (by simp)).2
  | cons c m ih =>
    have hc := Memory.pairwise_tail_lt h.1
    have tail : Memory.wf m := ⟨List.Pairwise.of_cons h.1, fun d hd => h.2 d (by simp [hd])⟩
    cases m' with
    | nil =>
      have := hr c.1
      rw [Memory.read_cons, if_pos rfl] at this
      exact absurd this (h.2 c (by simp)).2
    | cons d m' =>
      have hd := Memory.pairwise_tail_lt h'.1
      have tail' : Memory.wf m' := ⟨List.Pairwise.of_cons h'.1, fun e he => h'.2 e (by simp [he])⟩
      have hcd : c.1 = d.1 := by
        rcases Nat.lt_trichotomy c.1 d.1 with hlt | heq | hgt
        · have := hr c.1
          rw [Memory.read_cons, if_pos rfl, Memory.read_of_lt (d :: m') c.1 (by
            intro e he
            rcases List.mem_cons.1 he with rfl | he
            · exact hlt
            · exact Nat.lt_trans hlt (hd e he))] at this
          exact absurd this (h.2 c (by simp)).2
        · exact heq
        · have := hr d.1
          rw [Memory.read_cons d, if_pos rfl, Memory.read_of_lt (c :: m) d.1 (by
            intro e he
            rcases List.mem_cons.1 he with rfl | he
            · exact hgt
            · exact Nat.lt_trans hgt (hc e he))] at this
          exact absurd this.symm (h'.2 d (by simp)).2
      have hv : c.2 = d.2 := by
        have := hr c.1
        rwa [Memory.read_cons, if_pos rfl, Memory.read_cons, if_pos hcd.symm] at this
      have hm : m = m' := ih tail tail' fun a => by
        by_cases ha : a = c.1
        · rw [ha, Memory.read_of_lt m c.1 hc, Memory.read_of_lt m' c.1 (hcd ▸ hd)]
        · have := hr a
          rwa [Memory.read_cons, if_neg (Ne.symm ha), Memory.read_cons, if_neg (hcd ▸ Ne.symm ha)] at this
      rw [hm, Prod.ext hcd hv]

/-! ### A block of bytes -/

/-- A block write keeps the canonical form. -/
theorem Memory.wf_writeBlock {m : Memory} (a : Nat) (bs : List Byte) (h : m.wf) : (m.writeBlock a bs).wf := by
  induction bs generalizing m a with
  | nil => exact h
  | cons b bs ih => exact ih (a + 1) (Memory.wf_write b h (Nat.mod_lt _ (by decide)))

/-- A block write leaves every address outside the block alone. -/
theorem Memory.read_writeBlock_other (m : Memory) (a : Nat) (bs : List Byte) (a' : Nat)
    (ha : ∀ k < bs.length, a' ≠ busAddress (a + k)) : (m.writeBlock a bs).read a' = m.read a' := by
  induction bs generalizing m a with
  | nil => rfl
  | cons b bs ih =>
    have h0 := ha 0 (by simp)
    rw [Memory.writeBlock, ih _ (a + 1) (fun k hk => by
      have := ha (k + 1) (by simpa using hk)
      rwa [show a + 1 + k = a + (k + 1) by omega]), Memory.read_write, if_neg (by simpa using h0)]

/-- Byte `k` of a block of at most 4096 bytes reads back. -/
theorem Memory.read_writeBlock_at (m : Memory) (a : Nat) (bs : List Byte) (k : Nat) (hk : k < bs.length)
    (hlen : bs.length ≤ 4096) : (m.writeBlock a bs).read (busAddress (a + k)) = bs[k] := by
  induction bs generalizing m a k with
  | nil => simp at hk
  | cons b bs ih =>
    have hl : bs.length + 1 ≤ 4096 := by simpa using hlen
    cases k with
    | zero =>
      rw [Memory.writeBlock, Memory.read_writeBlock_other _ (a + 1) bs _ (fun j hj => by
        simp only [busAddress]; omega), Memory.read_write]
      simp
    | succ k =>
      have := ih (m.write (busAddress a) b) (a + 1) k (by simpa using hk) (by omega)
      rw [Memory.writeBlock, show a + (k + 1) = a + 1 + k by omega, this]
      simp

/-- A write of what an address reads as unlisted, to a memory that lists nothing, lists nothing. -/
theorem Memory.writeBlock_unlisted (a : Nat) (bs : List Byte)
    (h : ∀ (k : Nat) (hk : k < bs.length), bs[k] = Memory.unlisted (busAddress (a + k))) : Memory.writeBlock [] a bs = [] := by
  induction bs generalizing a with
  | nil => rfl
  | cons b bs ih =>
    have h0 : b = Memory.unlisted (busAddress a) := h 0 (by simp)
    rw [Memory.writeBlock, show Memory.write [] (busAddress a) b = [] by rw [Memory.write, if_pos h0]; rfl]
    refine ih (a + 1) fun k hk => ?_
    have := h (k + 1) (by simpa using hk)
    rwa [List.getElem_cons_succ, show a + (k + 1) = a + 1 + k by omega] at this

/-- Reset memory lists nothing: the hardware's FONT is what unlisted addresses read as (R51). -/
theorem mem_resetUnder_hardware : (resetUnder hardware).mem = [] := by
  simp only [resetUnder, hardware]
  apply Memory.writeBlock_unlisted
  intro k hk
  have hk' : k < 80 := by rwa [Vector.length_toList] at hk
  rw [Nat.zero_add, busAddress, Nat.mod_eq_of_lt (by omega), Memory.unlisted, Vector.getElem_toList,
    Vector.getElem?_eq_getElem hk', Option.getD_some]

theorem resetUnder_eq (c : Config) : resetUnder c = { State.reset with cfg := c, mem := (resetUnder c).mem } := rfl

theorem resetUnder_hardware : resetUnder hardware = State.reset := by
  rw [resetUnder_eq, mem_resetUnder_hardware]; rfl

end Sys2Proof.Machine
end

