-- ==== Sys2Proof/Laws/State.lean ====
section
/-! SUPPORT. One lemma per field and per state update of Machine/Ops.lean, so that no later proof unfolds an update. -/

namespace Sys2Proof.Machine

/-! ### setReg -/

@[simp] theorem State.setReg_v (s : State) (x : Reg) (b : Byte) : (s.setReg x b).v = s.v.set x.val b := rfl
@[simp] theorem State.setReg_I (s : State) (x : Reg) (b : Byte) : (s.setReg x b).I = s.I := rfl
@[simp] theorem State.setReg_pc (s : State) (x : Reg) (b : Byte) : (s.setReg x b).pc = s.pc := rfl
@[simp] theorem State.setReg_sp (s : State) (x : Reg) (b : Byte) : (s.setReg x b).sp = s.sp := rfl
@[simp] theorem State.setReg_stack (s : State) (x : Reg) (b : Byte) : (s.setReg x b).stack = s.stack := rfl
@[simp] theorem State.setReg_dt (s : State) (x : Reg) (b : Byte) : (s.setReg x b).dt = s.dt := rfl
@[simp] theorem State.setReg_st (s : State) (x : Reg) (b : Byte) : (s.setReg x b).st = s.st := rfl
@[simp] theorem State.setReg_mem (s : State) (x : Reg) (b : Byte) : (s.setReg x b).mem = s.mem := rfl
@[simp] theorem State.setReg_disp (s : State) (x : Reg) (b : Byte) : (s.setReg x b).disp = s.disp := rfl
@[simp] theorem State.setReg_keys (s : State) (x : Reg) (b : Byte) : (s.setReg x b).keys = s.keys := rfl
@[simp] theorem State.setReg_dirty (s : State) (x : Reg) (b : Byte) : (s.setReg x b).dirty = s.dirty := rfl
@[simp] theorem State.setReg_keyWait (s : State) (x : Reg) (b : Byte) : (s.setReg x b).keyWait = s.keyWait := rfl
@[simp] theorem State.setReg_fault (s : State) (x : Reg) (b : Byte) : (s.setReg x b).fault = s.fault := rfl
@[simp] theorem State.setReg_cfg (s : State) (x : Reg) (b : Byte) : (s.setReg x b).cfg = s.cfg := rfl
@[simp] theorem State.setReg_rndIn (s : State) (x : Reg) (b : Byte) : (s.setReg x b).rndIn = s.rndIn := rfl
@[simp] theorem State.setReg_draws (s : State) (x : Reg) (b : Byte) : (s.setReg x b).draws = s.draws := rfl

/-! ### setFlagAndReg -/

@[simp] theorem State.setFlagAndReg_v (s : State) (x : Reg) (f r : Byte) : (s.setFlagAndReg x f r).v = (s.v.set VF.val f).set x.val r := rfl
@[simp] theorem State.setFlagAndReg_I (s : State) (x : Reg) (f r : Byte) : (s.setFlagAndReg x f r).I = s.I := rfl
@[simp] theorem State.setFlagAndReg_pc (s : State) (x : Reg) (f r : Byte) : (s.setFlagAndReg x f r).pc = s.pc := rfl
@[simp] theorem State.setFlagAndReg_sp (s : State) (x : Reg) (f r : Byte) : (s.setFlagAndReg x f r).sp = s.sp := rfl
@[simp] theorem State.setFlagAndReg_stack (s : State) (x : Reg) (f r : Byte) : (s.setFlagAndReg x f r).stack = s.stack := rfl
@[simp] theorem State.setFlagAndReg_dt (s : State) (x : Reg) (f r : Byte) : (s.setFlagAndReg x f r).dt = s.dt := rfl
@[simp] theorem State.setFlagAndReg_st (s : State) (x : Reg) (f r : Byte) : (s.setFlagAndReg x f r).st = s.st := rfl
@[simp] theorem State.setFlagAndReg_mem (s : State) (x : Reg) (f r : Byte) : (s.setFlagAndReg x f r).mem = s.mem := rfl
@[simp] theorem State.setFlagAndReg_disp (s : State) (x : Reg) (f r : Byte) : (s.setFlagAndReg x f r).disp = s.disp := rfl
@[simp] theorem State.setFlagAndReg_keys (s : State) (x : Reg) (f r : Byte) : (s.setFlagAndReg x f r).keys = s.keys := rfl
@[simp] theorem State.setFlagAndReg_dirty (s : State) (x : Reg) (f r : Byte) : (s.setFlagAndReg x f r).dirty = s.dirty := rfl
@[simp] theorem State.setFlagAndReg_keyWait (s : State) (x : Reg) (f r : Byte) : (s.setFlagAndReg x f r).keyWait = s.keyWait := rfl
@[simp] theorem State.setFlagAndReg_fault (s : State) (x : Reg) (f r : Byte) : (s.setFlagAndReg x f r).fault = s.fault := rfl
@[simp] theorem State.setFlagAndReg_cfg (s : State) (x : Reg) (f r : Byte) : (s.setFlagAndReg x f r).cfg = s.cfg := rfl
@[simp] theorem State.setFlagAndReg_rndIn (s : State) (x : Reg) (f r : Byte) : (s.setFlagAndReg x f r).rndIn = s.rndIn := rfl
@[simp] theorem State.setFlagAndReg_draws (s : State) (x : Reg) (f r : Byte) : (s.setFlagAndReg x f r).draws = s.draws := rfl

/-! ### advance -/

@[simp] theorem State.advance_v (s : State) : (s.advance).v = s.v := rfl
@[simp] theorem State.advance_I (s : State) : (s.advance).I = s.I := rfl
@[simp] theorem State.advance_pc (s : State) : (s.advance).pc = s.pc + 2 := rfl
@[simp] theorem State.advance_sp (s : State) : (s.advance).sp = s.sp := rfl
@[simp] theorem State.advance_stack (s : State) : (s.advance).stack = s.stack := rfl
@[simp] theorem State.advance_dt (s : State) : (s.advance).dt = s.dt := rfl
@[simp] theorem State.advance_st (s : State) : (s.advance).st = s.st := rfl
@[simp] theorem State.advance_mem (s : State) : (s.advance).mem = s.mem := rfl
@[simp] theorem State.advance_disp (s : State) : (s.advance).disp = s.disp := rfl
@[simp] theorem State.advance_keys (s : State) : (s.advance).keys = s.keys := rfl
@[simp] theorem State.advance_dirty (s : State) : (s.advance).dirty = s.dirty := rfl
@[simp] theorem State.advance_keyWait (s : State) : (s.advance).keyWait = s.keyWait := rfl
@[simp] theorem State.advance_fault (s : State) : (s.advance).fault = s.fault := rfl
@[simp] theorem State.advance_cfg (s : State) : (s.advance).cfg = s.cfg := rfl
@[simp] theorem State.advance_rndIn (s : State) : (s.advance).rndIn = s.rndIn := rfl
@[simp] theorem State.advance_draws (s : State) : (s.advance).draws = s.draws := rfl

/-! ### skipIf -/

@[simp] theorem State.skipIf_v (s : State) (c : Bool) : (s.skipIf c).v = s.v := rfl
@[simp] theorem State.skipIf_I (s : State) (c : Bool) : (s.skipIf c).I = s.I := rfl
@[simp] theorem State.skipIf_pc (s : State) (c : Bool) : (s.skipIf c).pc = if c then s.pc + 4 else s.pc + 2 := rfl
@[simp] theorem State.skipIf_sp (s : State) (c : Bool) : (s.skipIf c).sp = s.sp := rfl
@[simp] theorem State.skipIf_stack (s : State) (c : Bool) : (s.skipIf c).stack = s.stack := rfl
@[simp] theorem State.skipIf_dt (s : State) (c : Bool) : (s.skipIf c).dt = s.dt := rfl
@[simp] theorem State.skipIf_st (s : State) (c : Bool) : (s.skipIf c).st = s.st := rfl
@[simp] theorem State.skipIf_mem (s : State) (c : Bool) : (s.skipIf c).mem = s.mem := rfl
@[simp] theorem State.skipIf_disp (s : State) (c : Bool) : (s.skipIf c).disp = s.disp := rfl
@[simp] theorem State.skipIf_keys (s : State) (c : Bool) : (s.skipIf c).keys = s.keys := rfl
@[simp] theorem State.skipIf_dirty (s : State) (c : Bool) : (s.skipIf c).dirty = s.dirty := rfl
@[simp] theorem State.skipIf_keyWait (s : State) (c : Bool) : (s.skipIf c).keyWait = s.keyWait := rfl
@[simp] theorem State.skipIf_fault (s : State) (c : Bool) : (s.skipIf c).fault = s.fault := rfl
@[simp] theorem State.skipIf_cfg (s : State) (c : Bool) : (s.skipIf c).cfg = s.cfg := rfl
@[simp] theorem State.skipIf_rndIn (s : State) (c : Bool) : (s.skipIf c).rndIn = s.rndIn := rfl
@[simp] theorem State.skipIf_draws (s : State) (c : Bool) : (s.skipIf c).draws = s.draws := rfl

/-! ### recordFault -/

@[simp] theorem State.recordFault_v (s : State) (c : FaultCode) : (s.recordFault c).v = s.v := rfl
@[simp] theorem State.recordFault_I (s : State) (c : FaultCode) : (s.recordFault c).I = s.I := rfl
@[simp] theorem State.recordFault_pc (s : State) (c : FaultCode) : (s.recordFault c).pc = s.pc := rfl
@[simp] theorem State.recordFault_sp (s : State) (c : FaultCode) : (s.recordFault c).sp = s.sp := rfl
@[simp] theorem State.recordFault_stack (s : State) (c : FaultCode) : (s.recordFault c).stack = s.stack := rfl
@[simp] theorem State.recordFault_dt (s : State) (c : FaultCode) : (s.recordFault c).dt = s.dt := rfl
@[simp] theorem State.recordFault_st (s : State) (c : FaultCode) : (s.recordFault c).st = s.st := rfl
@[simp] theorem State.recordFault_mem (s : State) (c : FaultCode) : (s.recordFault c).mem = s.mem := rfl
@[simp] theorem State.recordFault_disp (s : State) (c : FaultCode) : (s.recordFault c).disp = s.disp := rfl
@[simp] theorem State.recordFault_keys (s : State) (c : FaultCode) : (s.recordFault c).keys = s.keys := rfl
@[simp] theorem State.recordFault_dirty (s : State) (c : FaultCode) : (s.recordFault c).dirty = s.dirty := rfl
@[simp] theorem State.recordFault_keyWait (s : State) (c : FaultCode) : (s.recordFault c).keyWait = s.keyWait := rfl
@[simp] theorem State.recordFault_fault (s : State) (c : FaultCode) : (s.recordFault c).fault = if s.fault = 0 then c.code else s.fault := rfl
@[simp] theorem State.recordFault_cfg (s : State) (c : FaultCode) : (s.recordFault c).cfg = s.cfg := rfl
@[simp] theorem State.recordFault_rndIn (s : State) (c : FaultCode) : (s.recordFault c).rndIn = s.rndIn := rfl
@[simp] theorem State.recordFault_draws (s : State) (c : FaultCode) : (s.recordFault c).draws = s.draws := rfl

/-! ### beginStep -/

@[simp] theorem State.beginStep_v (s : State) : (s.beginStep).v = s.v := rfl
@[simp] theorem State.beginStep_I (s : State) : (s.beginStep).I = s.I := rfl
@[simp] theorem State.beginStep_pc (s : State) : (s.beginStep).pc = s.pc := rfl
@[simp] theorem State.beginStep_sp (s : State) : (s.beginStep).sp = s.sp := rfl
@[simp] theorem State.beginStep_stack (s : State) : (s.beginStep).stack = s.stack := rfl
@[simp] theorem State.beginStep_dt (s : State) : (s.beginStep).dt = s.dt := rfl
@[simp] theorem State.beginStep_st (s : State) : (s.beginStep).st = s.st := rfl
@[simp] theorem State.beginStep_mem (s : State) : (s.beginStep).mem = s.mem := rfl
@[simp] theorem State.beginStep_disp (s : State) : (s.beginStep).disp = s.disp := rfl
@[simp] theorem State.beginStep_keys (s : State) : (s.beginStep).keys = s.keys := rfl
@[simp] theorem State.beginStep_dirty (s : State) : (s.beginStep).dirty = s.dirty := rfl
@[simp] theorem State.beginStep_keyWait (s : State) : (s.beginStep).keyWait = false := rfl
@[simp] theorem State.beginStep_fault (s : State) : (s.beginStep).fault = s.fault := rfl
@[simp] theorem State.beginStep_cfg (s : State) : (s.beginStep).cfg = s.cfg := rfl
@[simp] theorem State.beginStep_rndIn (s : State) : (s.beginStep).rndIn = s.rndIn := rfl
@[simp] theorem State.beginStep_draws (s : State) : (s.beginStep).draws = s.draws := rfl

/-! ### countTimers -/

@[simp] theorem State.countTimers_v (s : State) : (s.countTimers).v = s.v := rfl
@[simp] theorem State.countTimers_I (s : State) : (s.countTimers).I = s.I := rfl
@[simp] theorem State.countTimers_pc (s : State) : (s.countTimers).pc = s.pc := rfl
@[simp] theorem State.countTimers_sp (s : State) : (s.countTimers).sp = s.sp := rfl
@[simp] theorem State.countTimers_stack (s : State) : (s.countTimers).stack = s.stack := rfl
@[simp] theorem State.countTimers_dt (s : State) : (s.countTimers).dt = countDown s.dt := rfl
@[simp] theorem State.countTimers_st (s : State) : (s.countTimers).st = countDown s.st := rfl
@[simp] theorem State.countTimers_mem (s : State) : (s.countTimers).mem = s.mem := rfl
@[simp] theorem State.countTimers_disp (s : State) : (s.countTimers).disp = s.disp := rfl
@[simp] theorem State.countTimers_keys (s : State) : (s.countTimers).keys = s.keys := rfl
@[simp] theorem State.countTimers_dirty (s : State) : (s.countTimers).dirty = s.dirty := rfl
@[simp] theorem State.countTimers_keyWait (s : State) : (s.countTimers).keyWait = s.keyWait := rfl
@[simp] theorem State.countTimers_fault (s : State) : (s.countTimers).fault = s.fault := rfl
@[simp] theorem State.countTimers_cfg (s : State) : (s.countTimers).cfg = s.cfg := rfl
@[simp] theorem State.countTimers_rndIn (s : State) : (s.countTimers).rndIn = s.rndIn := rfl
@[simp] theorem State.countTimers_draws (s : State) : (s.countTimers).draws = s.draws := rfl

/-! ### endStep -/

@[simp] theorem State.endStep_v (s : State) : s.endStep.v = s.v := by
  unfold State.endStep; cases s.cfg.timerPolicy <;> rfl
@[simp] theorem State.endStep_I (s : State) : s.endStep.I = s.I := by
  unfold State.endStep; cases s.cfg.timerPolicy <;> rfl
@[simp] theorem State.endStep_pc (s : State) : s.endStep.pc = s.pc := by
  unfold State.endStep; cases s.cfg.timerPolicy <;> rfl
@[simp] theorem State.endStep_sp (s : State) : s.endStep.sp = s.sp := by
  unfold State.endStep; cases s.cfg.timerPolicy <;> rfl
@[simp] theorem State.endStep_stack (s : State) : s.endStep.stack = s.stack := by
  unfold State.endStep; cases s.cfg.timerPolicy <;> rfl
theorem State.endStep_dt (s : State) :
    s.endStep.dt = match s.cfg.timerPolicy with | .perStep => countDown s.dt | .tick60 => s.dt := by
  unfold State.endStep; cases s.cfg.timerPolicy <;> rfl
theorem State.endStep_st (s : State) :
    s.endStep.st = match s.cfg.timerPolicy with | .perStep => countDown s.st | .tick60 => s.st := by
  unfold State.endStep; cases s.cfg.timerPolicy <;> rfl
@[simp] theorem State.endStep_mem (s : State) : s.endStep.mem = s.mem := by
  unfold State.endStep; cases s.cfg.timerPolicy <;> rfl
@[simp] theorem State.endStep_disp (s : State) : s.endStep.disp = s.disp := by
  unfold State.endStep; cases s.cfg.timerPolicy <;> rfl
@[simp] theorem State.endStep_keys (s : State) : s.endStep.keys = s.keys := by
  unfold State.endStep; cases s.cfg.timerPolicy <;> rfl
@[simp] theorem State.endStep_dirty (s : State) : s.endStep.dirty = s.dirty := by
  unfold State.endStep; cases s.cfg.timerPolicy <;> rfl
@[simp] theorem State.endStep_keyWait (s : State) : s.endStep.keyWait = s.keyWait := by
  unfold State.endStep; cases s.cfg.timerPolicy <;> rfl
@[simp] theorem State.endStep_fault (s : State) : s.endStep.fault = s.fault := by
  unfold State.endStep; cases s.cfg.timerPolicy <;> rfl
@[simp] theorem State.endStep_cfg (s : State) : s.endStep.cfg = s.cfg := by
  unfold State.endStep; cases s.cfg.timerPolicy <;> rfl
@[simp] theorem State.endStep_rndIn (s : State) : s.endStep.rndIn = s.rndIn.tail := rfl
@[simp] theorem State.endStep_draws (s : State) : s.endStep.draws = s.draws + 1 := rfl

/-- The end of a step changes the timers and the model's own `rndIn` and `draws` only. -/
theorem State.endStep_eq (s : State) :
    s.endStep = { s with dt := s.endStep.dt, st := s.endStep.st, rndIn := s.rndIn.tail, draws := s.draws + 1 } := by
  unfold State.endStep; cases s.cfg.timerPolicy <;> rfl

/-- A timer counted down, as a number. -/
@[simp] theorem toNat_countDown (t : Byte) : (countDown t).toNat = t.toNat - 1 := by
  unfold countDown
  split
  · next h => simp [h]
  · next h =>
    have : t.toNat ≠ 0 := fun h0 => h (BitVec.eq_of_toNat_eq (by simpa using h0))
    rw [BitVec.toNat_sub_of_le (BitVec.le_def.2 (by simp; omega))]
    rfl

/-! ### Reading a register back -/

/-- `V[y]` after `V[x] <- b`. -/
@[simp] theorem State.reg_setReg (s : State) (x y : Reg) (b : Byte) :
    (s.setReg x b).reg y = if y = x then b else s.reg y := by
  by_cases h : x.val = y.val
  · simp [State.reg, State.setReg, h, Fin.ext_iff]
  · simp [State.reg, State.setReg, h, Fin.ext_iff, eq_comm]

/-- `V[y]` after a flag and a destination are written: the destination wins (R152). -/
@[simp] theorem State.reg_setFlagAndReg (s : State) (x y : Reg) (f r : Byte) :
    (s.setFlagAndReg x f r).reg y = if y = x then r else if y = VF then f else s.reg y := by
  simp [State.setFlagAndReg]

@[simp] theorem State.reg_advance (s : State) (x : Reg) : s.advance.reg x = s.reg x := rfl

@[simp] theorem State.reg_endStep (s : State) (x : Reg) : s.endStep.reg x = s.reg x := by
  simp [State.reg]

/-- `V[y]` of a state whose registers are those of `s` with `V[x]` replaced. -/
theorem State.set_getElem (s : State) (x y : Reg) (b : Byte) :
    (s.v.set x.val b)[y.val] = if y = x then b else s.reg y := s.reg_setReg x y b

/-- `V[y]` after Fx65's load (R226). -/
@[simp] theorem State.loadRegs_getElem (s : State) (x y : Reg) (a : Nat) :
    (s.loadRegs x a)[y.val] = if y ≤ x then s.memByte (a + y.val) else s.reg y := by
  simp [State.loadRegs]

end Sys2Proof.Machine
end

