-- ==== Sys2Proof/Laws/Step.lean ====
section
/-! SUPPORT. What a step can do, said once: its end, its two ways through (the instruction or the fault path), and the
agreement of the model's fetch with the spec's words for it in Safety.lean. -/

namespace Sys2Proof.Machine

/-! ### The shared operations -/

@[simp] theorem raiseFault_eq (c : FaultCode) (s : State) : raiseFault c s = .next (s.recordFault c) := rfl

@[simp] theorem finish_next (s : State) : finish (.next s) = .next s.endStep := rfl
@[simp] theorem finish_fault (r : Fault) : finish (.fault r) = .fault r := rfl
@[simp] theorem finish_refused (r : Refusal) : finish (.refused r) = .refused r := rfl

theorem finish_eq_next {o : Outcome} {t : State} : finish o = .next t ↔ ∃ u, o = .next u ∧ t = u.endStep := by
  cases o <;> simp [eq_comm]

/-- The code `recordFault` leaves, in the terms of the claims (R252). -/
theorem State.recordFault_eq (s : State) (c : FaultCode) : s.recordFault c = { s with fault := s.faultAfter c } := rfl

/-- The number of a code (R251). -/
@[simp] theorem FaultCode.toNat_code (c : FaultCode) : c.code.toNat = faultNumber c := by cases c <;> rfl

/-- A code is not 0. -/
theorem FaultCode.code_ne_zero (c : FaultCode) : c.code ≠ 0 := by cases c <;> decide

theorem State.faultAfter_ne_zero (s : State) (c : FaultCode) : s.faultAfter c ≠ 0 := by
  unfold State.faultAfter
  split
  · exact c.code_ne_zero
  · assumption

/-- The check the meanings make before an access is the spec's `outOfRange` (R64). -/
theorem State.addressFault_eq (s : State) (a k : Nat) : s.addressFault a k = s.outOfRange a k := by
  rw [Bool.eq_iff_iff]
  simp only [State.addressFault, State.outOfRange, Bool.and_eq_true, beq_iff_eq, decide_eq_true_iff, and_assoc]

/-- The fetch is allowed exactly if it raises no fault (R91). -/
theorem State.fetchable_iff (s : State) : s.fetchable ↔ ¬ s.outOfRange s.pc.toNat 2 := by
  unfold State.fetchable State.outOfRange
  rw [decide_eq_true_iff]
  constructor
  · rintro h ⟨hm, _, hp⟩
    have := h hm
    omega
  · intro h hm
    by_contra hp
    exact h ⟨hm, by decide, by omega⟩

/-! ### Fetch -/

theorem State.fetch_eq (s : State) :
    s.fetch = if s.outOfRange s.pc.toNat 2 then .error .addressRange else .ok s.wordAtPc := by
  unfold State.fetch
  rw [State.addressFault_eq]; rfl

/-- The instruction at PC where the fetch is allowed (R91, R92). -/
theorem State.fetchInstr_of_fetchable (s : State) (h : s.fetchable) :
    s.fetchInstr = match decodeWord s.wordAtPc with | .ok i => .ok i | .error _ => .error .invalidOpcode := by
  have e : s.fetch = .ok s.wordAtPc := by rw [State.fetch_eq, if_neg (s.fetchable_iff.1 h)]
  unfold State.fetchInstr
  generalize s.fetch = f at e
  subst e
  generalize s.wordAtPc = w
  cases hd : decodeWord w <;> simp only [hd]

theorem State.fetchInstr_eq (s : State) : s.fetchInstr =
    if s.outOfRange s.pc.toNat 2 then .error .addressRange
    else match decodeWord s.wordAtPc with | .ok i => .ok i | .error _ => .error .invalidOpcode := by
  by_cases h : s.outOfRange s.pc.toNat 2
  · have e : s.fetch = .error .addressRange := by rw [State.fetch_eq, if_pos h]
    rw [if_pos h]
    unfold State.fetchInstr
    generalize s.fetch = f at e
    subst e
    rfl
  · rw [if_neg h, State.fetchInstr_of_fetchable s (s.fetchable_iff.2 h)]

/-- Fetching an instruction: the fetch is allowed and the word at PC decodes to it. -/
theorem State.fetchInstr_ok {s : State} {i : Instr} :
    s.fetchInstr = .ok i ↔ s.fetchable ∧ decodeWord s.wordAtPc = .ok i := by
  rw [State.fetchInstr_eq, State.fetchable_iff]
  by_cases h : s.outOfRange s.pc.toNat 2
  · rw [if_pos h]; exact ⟨fun e => (nomatch e), fun e => absurd h e.1⟩
  · rw [if_neg h]
    cases decodeWord s.wordAtPc with
    | ok j => exact ⟨fun e => ⟨h, by cases e; rfl⟩, fun e => by cases e.2; rfl⟩
    | error r => exact ⟨fun e => (nomatch e), fun e => (nomatch e.2)⟩

/-- The fetch reads PC, memory and the parameters only. -/
theorem State.fetchInstr_congr {s s' : State} (hp : s'.pc = s.pc) (hm : s'.mem = s.mem) (hc : s'.cfg = s.cfg) :
    s'.fetchInstr = s.fetchInstr := by
  cases s; cases s'; cases hp; cases hm; cases hc; rfl

@[simp] theorem State.fetchInstr_beginStep (s : State) : s.beginStep.fetchInstr = s.fetchInstr := rfl

/-! ### The two ways through a step -/

theorem step_of_instr {s : State} {i : Instr} (h : s.fetchInstr = .ok i) : step s = finish (exec i s.beginStep) := by
  unfold step
  rw [State.fetchInstr_beginStep, h]

theorem step_of_fault {s : State} {c : FaultCode} (h : s.fetchInstr = .error c) :
    step s = .next (s.beginStep.recordFault c).endStep := by
  unfold step
  rw [State.fetchInstr_beginStep, h]; rfl

/-- Inversion of a step: an instruction was fetched and ended in a next state, or the fetch or the decode raised a fault;
and then the end of the step. -/
theorem step_next {s t : State} (h : step s = .next t) : ∃ u, t = u.endStep ∧
    ((∃ i, s.fetchInstr = .ok i ∧ exec i s.beginStep = .next u) ∨
      (∃ c, s.fetchInstr = .error c ∧ u = s.beginStep.recordFault c)) := by
  cases hf : s.fetchInstr with
  | ok i =>
    rw [step_of_instr hf, finish_eq_next] at h
    obtain ⟨u, hu, rfl⟩ := h
    exact ⟨u, rfl, .inl ⟨i, rfl, hu⟩⟩
  | error c =>
    rw [step_of_fault hf] at h
    cases h
    exact ⟨_, rfl, .inr ⟨c, rfl, rfl⟩⟩

/-- The key index the meanings use, in the spec's terms (R191). -/
theorem keyIndex_eq (s : State) (x : Reg) : keyIndex s.cfg (s.reg x) =
    if s.noSuchKey x then .error .keyIndexRange else .ok ((s.reg x).toNat % 16) := by
  have hb : (s.reg x &&& 0xF).toNat = (s.reg x).toNat % 16 := by
    rw [BitVec.toNat_and]; exact Nat.and_two_pow_sub_one_eq_mod (s.reg x).toNat 4
  unfold keyIndex State.noSuchKey
  simp only [decide_eq_true_iff]
  by_cases h : (s.reg x).toNat ≤ 0xF
  · rw [if_pos h, if_neg (by omega), Nat.mod_eq_of_lt (by omega)]
  · rw [if_neg h]
    cases hk : s.cfg.keyOob
    · rw [if_neg (fun e => nomatch e.1)]; exact congrArg _ hb
    · rw [if_pos ⟨rfl, by omega⟩]

end Sys2Proof.Machine
end

