-- ==== Sys2Proof/Laws/Exec.lean ====
section
/-! SUPPORT. The meanings, said once: an equation for each way through a conditional meaning, the frame of a register
write, when a meaning raises which fault, what no meaning writes, and a step in the same terms. -/

namespace Sys2Proof.Machine

/-! ### The ways through a conditional meaning -/

theorem exec_ret_underflow {s : State} (h : s.sp = 0) : exec .ret s = .next (s.recordFault .stackUnderflow) := by
  simp only [exec, execRet, if_pos h]; rfl

theorem exec_ret_pop {s : State} (h : s.sp ≠ 0) (h' : s.sp.toNat - 1 < 16) :
    exec .ret s = .next { s with sp := s.sp - 1, pc := s.stack[s.sp.toNat - 1] + 2 } := by
  simp only [exec, execRet, if_neg h, dif_pos h']

theorem exec_ret_stop {s : State} (h : s.sp ≠ 0) (h' : ¬ s.sp.toNat - 1 < 16) :
    exec .ret s = .fault .stackIndexRange := by
  simp only [exec, execRet, if_neg h, dif_neg h']

theorem exec_call_overflow {s : State} (nnn : Addr) (h : s.sp = 16) :
    exec (.call nnn) s = .next (s.recordFault .stackOverflow) := by
  simp only [exec, execCall, if_pos h]; rfl

theorem exec_call_push {s : State} (nnn : Addr) (h : s.sp ≠ 16) (h' : s.sp.toNat < 16) :
    exec (.call nnn) s =
      .next { s with stack := s.stack.set s.sp.toNat s.pc, sp := s.sp + 1, pc := zextAddr nnn } := by
  simp only [exec, execCall, if_neg h, dif_pos h']

theorem exec_call_stop {s : State} (nnn : Addr) (h : s.sp ≠ 16) (h' : ¬ s.sp.toNat < 16) :
    exec (.call nnn) s = .fault .stackIndexRange := by
  simp only [exec, execCall, if_neg h, dif_neg h']

theorem exec_drw_ok {s : State} (x y : Reg) (n : Nat) (h : ¬ s.outOfRange s.I.toNat n) :
    exec (.drw x y n) s =
      .next ({ s.setReg VF (collisionFlag (drawRows (s.memBlock s.I.toNat n) (s.reg y).toNat (s.reg x).toNat (s.disp, false)).2)
        with disp := (drawRows (s.memBlock s.I.toNat n) (s.reg y).toNat (s.reg x).toNat (s.disp, false)).1,
             dirty := true }).advance := by
  simp only [exec, execDrw, s.addressFault_eq, if_neg h]

theorem exec_ldB_ok {s : State} (x : Reg) (h : ¬ s.outOfRange s.I.toNat 3) :
    exec (.ldB x) s =
      .next { s with mem := s.mem.writeBlock s.I.toNat (bcdDigits (s.reg x)), pc := s.pc + 2 } := by
  simp only [exec, execLdB, s.addressFault_eq, if_neg h]; rfl

theorem exec_ldMemVx_ok {s : State} (x : Reg) (h : ¬ s.outOfRange s.I.toNat (x.val + 1)) :
    exec (.ldMemVx x) s =
      .next { s with mem := s.mem.writeBlock s.I.toNat (s.regBlock x), I := s.indexPast x, pc := s.pc + 2 } := by
  simp only [exec, execLdMemVx, s.addressFault_eq, if_neg h]; rfl

theorem exec_ldVxMem_ok {s : State} (x : Reg) (h : ¬ s.outOfRange s.I.toNat (x.val + 1)) :
    exec (.ldVxMem x) s =
      .next { s with v := s.loadRegs x s.I.toNat, I := s.indexPast x, pc := s.pc + 2 } := by
  simp only [exec, execLdVxMem, s.addressFault_eq, if_neg h]; rfl

theorem exec_skp_ok {s : State} (x : Reg) (h : ¬ s.noSuchKey x) :
    exec (.skp x) s = .next (s.skipIf (s.key ((s.reg x).toNat % 16))) := by
  simp only [exec, execSkp, keyIndex_eq, if_neg h]

theorem exec_sknp_ok {s : State} (x : Reg) (h : ¬ s.noSuchKey x) :
    exec (.sknp x) s = .next (s.skipIf (!s.key ((s.reg x).toNat % 16))) := by
  simp only [exec, execSknp, keyIndex_eq, if_neg h]

theorem exec_ldVxK_wait {s : State} (x : Reg) (h : s.pressedKey = none) :
    exec (.ldVxK x) s = .next { s with keyWait := true } := by
  simp only [exec, execLdVxK, h]

theorem exec_ldVxK_key {s : State} (x : Reg) {k : Nat} (h : s.pressedKey = some k) :
    exec (.ldVxK x) s = .next ({ s.setReg x (BitVec.ofNat 8 k) with keyWait := false }).advance := by
  simp only [exec, execLdVxK, h]

/-! ### Faults of the meanings (R251) -/

/-- A meaning raises the fault the spec's table gives, and does nothing else. -/
theorem exec_fault {s : State} {i : Instr} {c : FaultCode} (h : instrFault s i = some c) :
    exec i s = .next (s.recordFault c) := by
  cases i <;> simp only [instrFault, reduceCtorEq] at h <;> split at h <;> simp only [Option.some.injEq, reduceCtorEq] at h <;>
    subst h
  · next hs => exact exec_ret_underflow (BitVec.eq_of_toNat_eq (by simpa using hs))
  · next hs => exact exec_call_overflow _ (BitVec.eq_of_toNat_eq (by simpa using hs))
  · next hs => simp only [exec, execDrw, s.addressFault_eq, if_pos hs]; rfl
  · next hs => simp only [exec, execSkp, keyIndex_eq, if_pos hs]; rfl
  · next hs => simp only [exec, execSknp, keyIndex_eq, if_pos hs]; rfl
  · next hs => simp only [exec, execLdB, s.addressFault_eq, if_pos hs]; rfl
  · next hs => simp only [exec, execLdMemVx, s.addressFault_eq, if_pos hs]; rfl
  · next hs => simp only [exec, execLdVxMem, s.addressFault_eq, if_pos hs]; rfl

/-- A meaning ends in a next state where SP counts at most 16 entries: the one stop of the model lies beyond. -/
theorem exec_total {s : State} (i : Instr) (h : s.sp.toNat ≤ 16) : ∃ t, exec i s = .next t := by
  cases hf : instrFault s i with
  | some c => exact ⟨_, exec_fault hf⟩
  | none =>
    cases i
    case ret =>
      by_cases h0 : s.sp = 0
      · exact ⟨_, exec_ret_underflow h0⟩
      · exact ⟨_, exec_ret_pop h0 (by omega)⟩
    case call nnn =>
      by_cases h0 : s.sp = 16
      · exact ⟨_, exec_call_overflow nnn h0⟩
      · have hne : s.sp.toNat ≠ 16 := fun e => h0 (BitVec.eq_of_toNat_eq (by simpa using e))
        exact ⟨_, exec_call_push nnn h0 (by omega)⟩
    case drw => exact ⟨_, exec_drw_ok _ _ _ (by intro hs; simp [instrFault, hs] at hf)⟩
    case ldB => exact ⟨_, exec_ldB_ok _ (by intro hs; simp [instrFault, hs] at hf)⟩
    case ldMemVx => exact ⟨_, exec_ldMemVx_ok _ (by intro hs; simp [instrFault, hs] at hf)⟩
    case ldVxMem => exact ⟨_, exec_ldVxMem_ok _ (by intro hs; simp [instrFault, hs] at hf)⟩
    case skp => exact ⟨_, exec_skp_ok _ (by intro hs; simp [instrFault, hs] at hf)⟩
    case sknp => exact ⟨_, exec_sknp_ok _ (by intro hs; simp [instrFault, hs] at hf)⟩
    case ldVxK x =>
      cases hk : s.pressedKey with
      | none => exact ⟨_, exec_ldVxK_wait x hk⟩
      | some k => exact ⟨_, exec_ldVxK_key x hk⟩
    all_goals exact ⟨_, rfl⟩

/-- What no meaning writes: the keys, the parameters, the host's bytes and their count; `fault` is written by a fault only
(R39, R252). -/
theorem exec_frame {i : Instr} {s t : State} (ht : exec i s = .next t) :
    t.keys = s.keys ∧ t.cfg = s.cfg ∧ t.rndIn = s.rndIn ∧ t.draws = s.draws ∧
      (instrFault s i = none → t.fault = s.fault) := by
  cases hf : instrFault s i with
  | some c =>
    rw [exec_fault hf] at ht
    cases ht
    exact ⟨rfl, rfl, rfl, rfl, nofun⟩
  | none =>
    have key : ∀ u, exec i s = .next u → u.keys = s.keys ∧ u.cfg = s.cfg ∧ u.rndIn = s.rndIn ∧ u.draws = s.draws ∧
        u.fault = s.fault → t.keys = s.keys ∧ t.cfg = s.cfg ∧ t.rndIn = s.rndIn ∧ t.draws = s.draws ∧
        (none = none (α := FaultCode) → t.fault = s.fault) := by
      intro u hu h
      rw [hu] at ht
      cases ht
      exact ⟨h.1, h.2.1, h.2.2.1, h.2.2.2.1, fun _ => h.2.2.2.2⟩
    cases i
    case ret =>
      have h0 : s.sp ≠ 0 := fun e => by simp [instrFault, e] at hf
      by_cases h1 : s.sp.toNat - 1 < 16
      · exact key _ (exec_ret_pop h0 h1) ⟨rfl, rfl, rfl, rfl, rfl⟩
      · rw [exec_ret_stop h0 h1] at ht; cases ht
    case call nnn =>
      have h0 : s.sp ≠ 16 := fun e => by simp [instrFault, e] at hf
      by_cases h1 : s.sp.toNat < 16
      · exact key _ (exec_call_push nnn h0 h1) ⟨rfl, rfl, rfl, rfl, rfl⟩
      · rw [exec_call_stop nnn h0 h1] at ht; cases ht
    case drw =>
      exact key _ (exec_drw_ok _ _ _ (by intro hs; simp [instrFault, hs] at hf)) ⟨rfl, rfl, rfl, rfl, rfl⟩
    case ldB => exact key _ (exec_ldB_ok _ (by intro hs; simp [instrFault, hs] at hf)) ⟨rfl, rfl, rfl, rfl, rfl⟩
    case ldMemVx =>
      exact key _ (exec_ldMemVx_ok _ (by intro hs; simp [instrFault, hs] at hf)) ⟨rfl, rfl, rfl, rfl, rfl⟩
    case ldVxMem =>
      exact key _ (exec_ldVxMem_ok _ (by intro hs; simp [instrFault, hs] at hf)) ⟨rfl, rfl, rfl, rfl, rfl⟩
    case skp => exact key _ (exec_skp_ok _ (by intro hs; simp [instrFault, hs] at hf)) ⟨rfl, rfl, rfl, rfl, rfl⟩
    case sknp => exact key _ (exec_sknp_ok _ (by intro hs; simp [instrFault, hs] at hf)) ⟨rfl, rfl, rfl, rfl, rfl⟩
    case ldVxK x =>
      cases hk : s.pressedKey with
      | none => exact key _ (exec_ldVxK_wait x hk) ⟨rfl, rfl, rfl, rfl, rfl⟩
      | some k => exact key _ (exec_ldVxK_key x hk) ⟨rfl, rfl, rfl, rfl, rfl⟩
    all_goals exact key _ rfl ⟨rfl, rfl, rfl, rfl, rfl⟩

/-! ### What a register write leaves alone -/

/-- The frame of a meaning that writes `V[x]` and goes on. -/
theorem onlyRegs_setReg (s : State) (x : Reg) (b : Byte) : OnlyRegs s (s.setReg x b).advance [x] :=
  ⟨fun z hz => by rw [State.reg_advance, State.reg_setReg, if_neg (by simpa using hz)], rfl, fun _ => rfl⟩

/-- The frame of a meaning that writes VF and then `V[x]` and goes on. -/
theorem onlyRegs_setFlagAndReg (s : State) (x : Reg) (f b : Byte) :
    OnlyRegs s (s.setFlagAndReg x f b).advance [x, VF] := by
  refine ⟨fun z hz => ?_, rfl, fun _ => rfl⟩
  simp only [List.mem_cons, List.not_mem_nil, or_false, not_or] at hz
  rw [State.reg_advance, State.reg_setFlagAndReg, if_neg hz.1, if_neg hz.2]

/-- A flag byte as a number (R37). -/
@[simp] theorem toNat_flagByte (b : Bool) : (flagByte b).toNat = if b then 1 else 0 := by cases b <;> rfl

/-- A difference of bytes as a number (R148, R150). -/
theorem toNat_sub_byte (a b : Byte) : (a - b).toNat = (a.toNat + 256 - b.toNat) % 256 := by
  rw [BitVec.toNat_sub]
  have := a.isLt
  have := b.isLt
  omega

/-! ### Keys (R197, R198) -/

theorem foldl_scanKey_of_none {s : State} (l : List Nat) (a : Option Nat) (h : ∀ j ∈ l, s.keys.getLsbD j = false) :
    l.foldl (scanKey s) a = a := by
  induction l with
  | nil => rfl
  | cons b l ih =>
    rw [List.foldl_cons, show scanKey s a b = a by simp [scanKey, State.key, h b (by simp)],
      ih (fun k hk => h k (by simp [hk]))]

theorem State.pressedKey_eq_none {s : State} (h : ∀ k < 16, s.keys.getLsbD k = false) : s.pressedKey = none :=
  foldl_scanKey_of_none _ _ (fun j hj => h j (List.mem_range.1 hj))

/-- The scan finds the highest pressed key. -/
theorem State.pressedKey_eq_some {s : State} {k : Nat} (hk : k < 16) (h : s.keys.getLsbD k = true)
    (hj : ∀ j < 16, k < j → s.keys.getLsbD j = false) : s.pressedKey = some k := by
  have e : List.range 16 = List.range k ++ k :: List.range' (k + 1) (15 - k) := by interval_cases k <;> rfl
  unfold State.pressedKey
  rw [e, List.foldl_append, List.foldl_cons, foldl_scanKey_of_none]
  · simp [scanKey, State.key, h]
  · intro j hj'
    obtain ⟨i, hi, rfl⟩ := List.mem_range'.1 hj'
    exact hj _ (by omega) (by omega)

/-! ### Stored blocks (R224, R225) -/

@[simp] theorem length_bcdDigits (b : Byte) : (bcdDigits b).length = 3 := rfl

@[simp] theorem State.length_regBlock (s : State) (x : Reg) : (s.regBlock x).length = x.val + 1 := by
  simp [State.regBlock]

@[simp] theorem State.regBlock_getElem (s : State) (x i : Reg) (h : i.val < (s.regBlock x).length) :
    (s.regBlock x)[i.val] = s.reg i := by
  simp [State.regBlock, State.reg]

/-! ### A step in the terms of the claims -/

@[simp] theorem instrFault_beginStep (s : State) (i : Instr) : instrFault s.beginStep i = instrFault s i := by
  cases i <;> rfl

/-- A step whose fetch, decode or instruction raises a fault (R95, R253). -/
theorem step_of_stepFault {s : State} {c : FaultCode} (h : stepFault s = some c) :
    step s = .next (s.beginStep.recordFault c).endStep := by
  unfold stepFault at h
  split at h
  · next ho =>
    cases h
    exact step_of_fault (by rw [State.fetchInstr_eq, if_pos ho])
  · next ho =>
    cases hd : decodeWord s.wordAtPc with
    | error e =>
      rw [hd] at h
      cases h
      exact step_of_fault (by rw [State.fetchInstr_eq, if_neg ho, hd])
    | ok i =>
      rw [hd] at h
      rw [step_of_instr (i := i) (by rw [State.fetchInstr_eq, if_neg ho, hd]),
        exec_fault (by rw [instrFault_beginStep]; exact h)]
      rfl

/-- A step that raises no fault runs the instruction at PC, which raises none. -/
theorem step_of_no_stepFault {s t : State} (h : stepFault s = none) (ht : step s = .next t) :
    ∃ i u, s.fetchable ∧ decodeWord s.wordAtPc = .ok i ∧ instrFault s i = none ∧ exec i s.beginStep = .next u ∧
      t = u.endStep := by
  unfold stepFault at h
  split at h
  · cases h
  · next ho =>
    cases hd : decodeWord s.wordAtPc with
    | error e => rw [hd] at h; cases h
    | ok i =>
      rw [hd] at h
      rw [step_of_instr (i := i) (by rw [State.fetchInstr_eq, if_neg ho, hd]), finish_eq_next] at ht
      obtain ⟨u, hu, rfl⟩ := ht
      exact ⟨i, u, s.fetchable_iff.2 ho, rfl, h, hu, rfl⟩

/-- The timers at the end of a step, as numbers (R206). -/
theorem State.toNat_endStep_dt (s : State) : s.endStep.dt.toNat = s.timerAfter s.dt := by
  rw [State.endStep_dt]; unfold State.timerAfter; cases s.cfg.timerPolicy <;> simp

theorem State.toNat_endStep_st (s : State) : s.endStep.st.toNat = s.timerAfter s.st := by
  rw [State.endStep_st]; unfold State.timerAfter; cases s.cfg.timerPolicy <;> simp

/-! ### Rows of the opcode table (R84) -/

/-- A row whose mask fixes the family only. -/
theorem decodesTo_family {op : BitVec 4} {f : Word → Instr} (h : ∀ w, fieldOp w = op → decodeWord w = .ok (f w)) :
    DecodesTo (wordA op 0) 0xF000 f := fun w hw => h w ((mask_family w op).1 hw)

/-- A row whose mask fixes the family and the last nibble. -/
theorem decodesTo_family_n {op n : BitVec 4} {f : Word → Instr}
    (h : ∀ w, fieldOp w = op → fieldN w = n → decodeWord w = .ok (f w)) : DecodesTo (wordXYN op 0 0 n) 0xF00F f :=
  fun w hw => h w ((mask_family_n w op n).1 hw).1 ((mask_family_n w op n).1 hw).2

/-- A row whose mask fixes the family and the last byte. -/
theorem decodesTo_family_kk {op : BitVec 4} {kk : Byte} {f : Word → Instr}
    (h : ∀ w, fieldOp w = op → fieldKK w = kk → decodeWord w = .ok (f w)) : DecodesTo (wordXK op 0 kk) 0xF0FF f :=
  fun w hw => h w ((mask_family_kk w op kk).1 hw).1 ((mask_family_kk w op kk).1 hw).2

end Sys2Proof.Machine
end

