-- ==== Sys2Proof/Laws/PerInstr.lean ====
section
/-! SUPPORT. Per-instruction facts, one lemma per constructor of Instr: the encoding lies in its own row of the opcode
table, and the row's operands are the instruction's. -/

namespace Sys2Proof

/-- `w` is a word of row `k` of the opcode table, whose operands make it `i` (R84). -/
def InRow (k : Nat) (w : Word) (i : Instr) : Prop :=
  ∃ r, opcodeTable[k]? = some r ∧ r.matchesWord w = true ∧ r.operands w = i

/-- The encoding of a well-formed instruction lies in a row of the opcode table that gives it back (R81, R82, R84). -/
def Laws.EncodesTableRow.Statement (i : Instr) : Prop := WellFormed i = true → ∃ k, InRow k (encode i) i

namespace Laws.EncodesTableRow

theorem cls : Statement .cls := fun _ => ⟨0, _, rfl, rfl, rfl⟩
theorem ret : Statement .ret := fun _ => ⟨1, _, rfl, rfl, rfl⟩
theorem jp (nnn : Addr) : Statement (.jp nnn) := fun _ =>
  ⟨2, _, rfl, beq_iff_eq.2 ((mask_family _ 0x1#4).2 (by simp [encode])), by simp [encode]⟩
theorem call (nnn : Addr) : Statement (.call nnn) := fun _ =>
  ⟨3, _, rfl, beq_iff_eq.2 ((mask_family _ 0x2#4).2 (by simp [encode])), by simp [encode]⟩
theorem seImm (x : Reg) (kk : Byte) : Statement (.seImm x kk) := fun _ =>
  ⟨4, _, rfl, beq_iff_eq.2 ((mask_family _ 0x3#4).2 (by simp [encode])), by simp [encode]⟩
theorem sneImm (x : Reg) (kk : Byte) : Statement (.sneImm x kk) := fun _ =>
  ⟨5, _, rfl, beq_iff_eq.2 ((mask_family _ 0x4#4).2 (by simp [encode])), by simp [encode]⟩
theorem seReg (x : Reg) (y : Reg) : Statement (.seReg x y) := fun _ =>
  ⟨6, _, rfl, beq_iff_eq.2 ((mask_family_n _ 0x5#4 0x0#4).2 (by simp [encode])), by simp [encode]⟩
theorem ldImm (x : Reg) (kk : Byte) : Statement (.ldImm x kk) := fun _ =>
  ⟨7, _, rfl, beq_iff_eq.2 ((mask_family _ 0x6#4).2 (by simp [encode])), by simp [encode]⟩
theorem addImm (x : Reg) (kk : Byte) : Statement (.addImm x kk) := fun _ =>
  ⟨8, _, rfl, beq_iff_eq.2 ((mask_family _ 0x7#4).2 (by simp [encode])), by simp [encode]⟩
theorem ldReg (x : Reg) (y : Reg) : Statement (.ldReg x y) := fun _ =>
  ⟨9, _, rfl, beq_iff_eq.2 ((mask_family_n _ 0x8#4 0x0#4).2 (by simp [encode])), by simp [encode]⟩
theorem orReg (x : Reg) (y : Reg) : Statement (.orReg x y) := fun _ =>
  ⟨10, _, rfl, beq_iff_eq.2 ((mask_family_n _ 0x8#4 0x1#4).2 (by simp [encode])), by simp [encode]⟩
theorem andReg (x : Reg) (y : Reg) : Statement (.andReg x y) := fun _ =>
  ⟨11, _, rfl, beq_iff_eq.2 ((mask_family_n _ 0x8#4 0x2#4).2 (by simp [encode])), by simp [encode]⟩
theorem xorReg (x : Reg) (y : Reg) : Statement (.xorReg x y) := fun _ =>
  ⟨12, _, rfl, beq_iff_eq.2 ((mask_family_n _ 0x8#4 0x3#4).2 (by simp [encode])), by simp [encode]⟩
theorem addReg (x : Reg) (y : Reg) : Statement (.addReg x y) := fun _ =>
  ⟨13, _, rfl, beq_iff_eq.2 ((mask_family_n _ 0x8#4 0x4#4).2 (by simp [encode])), by simp [encode]⟩
theorem sub (x : Reg) (y : Reg) : Statement (.sub x y) := fun _ =>
  ⟨14, _, rfl, beq_iff_eq.2 ((mask_family_n _ 0x8#4 0x5#4).2 (by simp [encode])), by simp [encode]⟩
theorem shr (x : Reg) (y : Reg) : Statement (.shr x y) := fun _ =>
  ⟨15, _, rfl, beq_iff_eq.2 ((mask_family_n _ 0x8#4 0x6#4).2 (by simp [encode])), by simp [encode]⟩
theorem subn (x : Reg) (y : Reg) : Statement (.subn x y) := fun _ =>
  ⟨16, _, rfl, beq_iff_eq.2 ((mask_family_n _ 0x8#4 0x7#4).2 (by simp [encode])), by simp [encode]⟩
theorem shl (x : Reg) (y : Reg) : Statement (.shl x y) := fun _ =>
  ⟨17, _, rfl, beq_iff_eq.2 ((mask_family_n _ 0x8#4 0xE#4).2 (by simp [encode])), by simp [encode]⟩
theorem sneReg (x : Reg) (y : Reg) : Statement (.sneReg x y) := fun _ =>
  ⟨18, _, rfl, beq_iff_eq.2 ((mask_family_n _ 0x9#4 0x0#4).2 (by simp [encode])), by simp [encode]⟩
theorem ldI (nnn : Addr) : Statement (.ldI nnn) := fun _ =>
  ⟨19, _, rfl, beq_iff_eq.2 ((mask_family _ 0xA#4).2 (by simp [encode])), by simp [encode]⟩
theorem jpV0 (nnn : Addr) : Statement (.jpV0 nnn) := fun _ =>
  ⟨20, _, rfl, beq_iff_eq.2 ((mask_family _ 0xB#4).2 (by simp [encode])), by simp [encode]⟩
theorem rnd (x : Reg) (kk : Byte) : Statement (.rnd x kk) := fun _ =>
  ⟨21, _, rfl, beq_iff_eq.2 ((mask_family _ 0xC#4).2 (by simp [encode])), by simp [encode]⟩
theorem drw (x : Reg) (y : Reg) (n : Nat) : Statement (.drw x y n) := by
  intro h
  have hn : n < 16 := by simp [WellFormed] at h; omega
  exact ⟨22, _, rfl, beq_iff_eq.2 ((mask_family _ 0xD#4).2 (by simp [encode])), by simp [encode, Nat.mod_eq_of_lt hn]⟩
theorem skp (x : Reg) : Statement (.skp x) := fun _ =>
  ⟨23, _, rfl, beq_iff_eq.2 ((mask_family_kk _ 0xE#4 0x9E#8).2 (by simp [encode])), by simp [encode]⟩
theorem sknp (x : Reg) : Statement (.sknp x) := fun _ =>
  ⟨24, _, rfl, beq_iff_eq.2 ((mask_family_kk _ 0xE#4 0xA1#8).2 (by simp [encode])), by simp [encode]⟩
theorem ldVxDT (x : Reg) : Statement (.ldVxDT x) := fun _ =>
  ⟨25, _, rfl, beq_iff_eq.2 ((mask_family_kk _ 0xF#4 0x07#8).2 (by simp [encode])), by simp [encode]⟩
theorem ldVxK (x : Reg) : Statement (.ldVxK x) := fun _ =>
  ⟨26, _, rfl, beq_iff_eq.2 ((mask_family_kk _ 0xF#4 0x0A#8).2 (by simp [encode])), by simp [encode]⟩
theorem ldDTVx (x : Reg) : Statement (.ldDTVx x) := fun _ =>
  ⟨27, _, rfl, beq_iff_eq.2 ((mask_family_kk _ 0xF#4 0x15#8).2 (by simp [encode])), by simp [encode]⟩
theorem ldSTVx (x : Reg) : Statement (.ldSTVx x) := fun _ =>
  ⟨28, _, rfl, beq_iff_eq.2 ((mask_family_kk _ 0xF#4 0x18#8).2 (by simp [encode])), by simp [encode]⟩
theorem addI (x : Reg) : Statement (.addI x) := fun _ =>
  ⟨29, _, rfl, beq_iff_eq.2 ((mask_family_kk _ 0xF#4 0x1E#8).2 (by simp [encode])), by simp [encode]⟩
theorem ldF (x : Reg) : Statement (.ldF x) := fun _ =>
  ⟨30, _, rfl, beq_iff_eq.2 ((mask_family_kk _ 0xF#4 0x29#8).2 (by simp [encode])), by simp [encode]⟩
theorem ldB (x : Reg) : Statement (.ldB x) := fun _ =>
  ⟨31, _, rfl, beq_iff_eq.2 ((mask_family_kk _ 0xF#4 0x33#8).2 (by simp [encode])), by simp [encode]⟩
theorem ldMemVx (x : Reg) : Statement (.ldMemVx x) := fun _ =>
  ⟨32, _, rfl, beq_iff_eq.2 ((mask_family_kk _ 0xF#4 0x55#8).2 (by simp [encode])), by simp [encode]⟩
theorem ldVxMem (x : Reg) : Statement (.ldVxMem x) := fun _ =>
  ⟨33, _, rfl, beq_iff_eq.2 ((mask_family_kk _ 0xF#4 0x65#8).2 (by simp [encode])), by simp [encode]⟩

end Laws.EncodesTableRow

end Sys2Proof
end

