-- ==== Sys2Proof/Laws/Raster.lean ====
section
/-! SUPPORT. The rasterizer's pixel laws (R34, R170, R175), and what a whole draw does to the pixels (R172 to R174). -/

namespace Sys2Proof.Machine

/-- Every display bit is one pixel: equal pixels, equal displays (R34). -/
theorem Display.ext_pix {d d' : Display} (h : ∀ r c, d.pix r c = d'.pix r c) : d = d' := by
  apply Vector.ext
  intro b hb
  apply BitVec.eq_of_getLsbD_eq
  intro j hj
  have := h ⟨b / 8, by omega⟩ ⟨8 * (b % 8) + (7 - j), by omega⟩
  simp only [Display.pix, pixByte, pixBit] at this
  have e1 : 8 * (b / 8) + (8 * (b % 8) + (7 - j)) / 8 = b := by omega
  have e2 : 7 - (8 * (b % 8) + (7 - j)) % 8 = j := by omega
  simpa only [e1, e2] using this

/-- Two pixels in the same byte at the same bit are the same pixel (R34). -/
theorem pix_inj {r r' : Fin 32} {c c' : Fin 64} (hb : (pixByte r c).val = (pixByte r' c').val)
    (hc : pixBit c = pixBit c') : r = r' ∧ c = c' := by
  simp only [pixByte, pixBit] at hb hc
  constructor <;> apply Fin.ext <;> omega

/-- A byte with one bit set has no other bit set. -/
theorem one_shift_other : ∀ a b : Fin 8, a ≠ b → (1#8 <<< a.val).getLsbD b.val = false := by decide

/-- Inverting a pixel inverts it and leaves every other pixel alone (R170). -/
theorem Display.pix_flipPix (d : Display) (r r' : Fin 32) (c c' : Fin 64) :
    (d.flipPix r c).pix r' c' = if r' = r ∧ c' = c then !d.pix r c else d.pix r' c' := by
  have hbit : pixBit c' < 8 := by unfold pixBit; omega
  unfold Display.flipPix Display.pix
  by_cases hb : (pixByte r c).val = (pixByte r' c').val
  · by_cases hc : pixBit c = pixBit c'
    · obtain ⟨rfl, rfl⟩ := pix_inj hb hc
      simp [hbit]
    · have hne : ¬ (r' = r ∧ c' = c) := by rintro ⟨rfl, rfl⟩; exact hc rfl
      rw [if_neg hne]
      have hz : (1#8 <<< pixBit c).getLsbD (pixBit c') = false :=
        one_shift_other ⟨pixBit c, by unfold pixBit; omega⟩ ⟨pixBit c', hbit⟩ (by simpa using hc)
      simp only [hb, Vector.getElem_set_self, BitVec.getLsbD_xor, hz, Bool.xor_false]
  · have hne : ¬ (r' = r ∧ c' = c) := by rintro ⟨rfl, rfl⟩; exact hb rfl
    rw [if_neg hne, Vector.getElem_set_ne _ _ hb]

/-! ### A draw -/

/-- The pixels the first `k` columns of a sprite row set (R172, R173). -/
def rowSets (b : Byte) (row col k : Nat) (r : Fin 32) (c : Fin 64) : Bool :=
  (List.range k).any fun j => decide (r = wrapRow row) && decide (c = wrapCol (col + j)) && spriteBit b j

theorem rowSets_succ (b : Byte) (row col k : Nat) (r : Fin 32) (c : Fin 64) :
    rowSets b row col (k + 1) r c =
      (rowSets b row col k r c || (decide (r = wrapRow row) && decide (c = wrapCol (col + k)) && spriteBit b k)) := by
  simp [rowSets, List.range_succ]

/-- A column of a sprite row is set by no earlier column: eight columns do not wrap onto each other. -/
theorem rowSets_fresh (b : Byte) (row col k : Nat) (hk : k < 8) (r : Fin 32) :
    rowSets b row col k r (wrapCol (col + k)) = false := by
  simp only [rowSets, List.any_eq_false, List.mem_range, Bool.and_eq_true, decide_eq_true_eq, wrapCol, Fin.ext_iff,
    Fin.val_ofNat]
  intro j hj
  omega

theorem foldl_drawPixel (b : Byte) (row col : Nat) (d : Display) (hit : Bool) (k : Nat) (hk : k ≤ 8) :
    (∀ r c, ((List.range k).foldl (drawPixel b row col) (d, hit)).1.pix r c = (d.pix r c != rowSets b row col k r c)) ∧
    (((List.range k).foldl (drawPixel b row col) (d, hit)).2 = true ↔
      hit = true ∨ ∃ r c, d.pix r c = true ∧ rowSets b row col k r c = true) := by
  induction k with
  | zero => simp [rowSets]
  | succ k ih =>
    obtain ⟨ih1, ih2⟩ := ih (by omega)
    have fresh := rowSets_fresh b row col k (by omega) (wrapRow row)
    rw [List.range_succ, List.foldl_append, List.foldl_cons, List.foldl_nil]
    generalize (List.range k).foldl (drawPixel b row col) (d, hit) = acc at ih1 ih2 ⊢
    have here := ih1 (wrapRow row) (wrapCol (col + k))
    rw [fresh, Bool.bne_false] at here
    unfold drawPixel
    by_cases hb : spriteBit b k = true
    · rw [if_pos hb]
      constructor
      · intro r c
        rw [Display.pix_flipPix, rowSets_succ, hb, Bool.and_true]
        by_cases hrc : r = wrapRow row ∧ c = wrapCol (col + k)
        · obtain ⟨rfl, rfl⟩ := hrc
          simp [here, fresh]
        · rw [if_neg hrc, ih1 r c]
          by_cases hr : r = wrapRow row <;> by_cases hc : c = wrapCol (col + k) <;> simp_all
      · simp only [Bool.or_eq_true, ih2, here, rowSets_succ, hb, Bool.and_true, Bool.and_eq_true, decide_eq_true_eq]
        constructor
        · rintro ((h | ⟨r, c, h, h'⟩) | h)
          · exact .inl h
          · exact .inr ⟨r, c, h, .inl h'⟩
          · exact .inr ⟨_, _, h, .inr ⟨rfl, rfl⟩⟩
        · rintro (h | ⟨r, c, h, h' | ⟨rfl, rfl⟩⟩)
          · exact .inl (.inl h)
          · exact .inl (.inr ⟨r, c, h, h'⟩)
          · exact .inr h
    · rw [if_neg hb]
      rw [Bool.not_eq_true] at hb
      have e : ∀ r c, rowSets b row col (k + 1) r c = rowSets b row col k r c := fun r c => by
        rw [rowSets_succ, hb, Bool.and_false, Bool.or_false]
      simp only [e]
      exact ⟨ih1, ih2⟩

/-- The pixels the sprite rows `bs` set, the first at `row` (R172, R173). -/
def rowsSet : List Byte → Nat → Nat → Fin 32 → Fin 64 → Bool
  | [], _, _, _, _ => false
  | b :: bs, row, col, r, c => rowSets b row col 8 r c || rowsSet bs (row + 1) col r c

theorem rowsSet_row {bs : List Byte} {row col : Nat} {r : Fin 32} {c : Fin 64} (h : rowsSet bs row col r c = true) :
    ∃ j < bs.length, r = wrapRow (row + j) := by
  induction bs generalizing row with
  | nil => cases h
  | cons b bs ih =>
    rw [rowsSet, Bool.or_eq_true] at h
    rcases h with h | h
    · simp only [rowSets, List.any_eq_true, List.mem_range, Bool.and_eq_true, decide_eq_true_eq] at h
      obtain ⟨j, _, ⟨rfl, _⟩, _⟩ := h
      exact ⟨0, by simp, rfl⟩
    · obtain ⟨j, hj, rfl⟩ := ih h
      exact ⟨j + 1, by simpa using hj, by congr 1; omega⟩

/-- A draw of at most 32 rows inverts exactly the pixels its rows set, and reports a collision exactly if one of them was
on (R170, R174): no two of its pixels are the same (R175). -/
theorem drawRows_spec (bs : List Byte) (row col : Nat) (d : Display) (hit : Bool) (hlen : bs.length ≤ 32) :
    (∀ r c, (drawRows bs row col (d, hit)).1.pix r c = (d.pix r c != rowsSet bs row col r c)) ∧
    ((drawRows bs row col (d, hit)).2 = true ↔
      hit = true ∨ ∃ r c, d.pix r c = true ∧ rowsSet bs row col r c = true) := by
  induction bs generalizing row d hit with
  | nil => simp [drawRows, rowsSet]
  | cons b bs ih =>
    obtain ⟨p1, p2⟩ := foldl_drawPixel b row col d hit 8 (Nat.le_refl 8)
    rw [drawRows, drawRow]
    generalize (List.range 8).foldl (drawPixel b row col) (d, hit) = acc at p1 p2 ⊢
    have hl : bs.length + 1 ≤ 32 := by simpa using hlen
    obtain ⟨q1, q2⟩ := ih (row + 1) acc.1 acc.2 (by omega)
    have disj : ∀ r c, rowSets b row col 8 r c = true → rowsSet bs (row + 1) col r c = false := by
      intro r c h
      rw [← Bool.not_eq_true]
      intro h'
      obtain ⟨j, hj, hr⟩ := rowsSet_row h'
      simp only [rowSets, List.any_eq_true, List.mem_range, Bool.and_eq_true, decide_eq_true_eq] at h
      obtain ⟨_, _, ⟨hr', _⟩, _⟩ := h
      rw [hr', wrapRow, wrapRow, Fin.ext_iff, Fin.val_ofNat, Fin.val_ofNat] at hr
      omega
    constructor
    · intro r c
      rw [q1, p1, rowsSet]
      cases hr : rowSets b row col 8 r c with
      | true => rw [disj r c hr, Bool.bne_false, Bool.true_or]
      | false => rw [Bool.bne_false, Bool.false_or]
    · rw [q2, p2]
      simp only [p1, rowsSet, Bool.or_eq_true]
      constructor
      · rintro ((h | ⟨r, c, h, h'⟩) | ⟨r, c, h, h'⟩)
        · exact .inl h
        · exact .inr ⟨r, c, h, .inl h'⟩
        · cases hr : rowSets b row col 8 r c with
          | true => rw [disj r c hr] at h'; cases h'
          | false => rw [hr, Bool.bne_false] at h; exact .inr ⟨r, c, h, .inr h'⟩
      · rintro (h | ⟨r, c, h, h' | h'⟩)
        · exact .inl (.inl h)
        · exact .inl (.inr ⟨r, c, h, h'⟩)
        · cases hr : rowSets b row col 8 r c with
          | true => exact .inl (.inr ⟨r, c, h, hr⟩)
          | false => exact .inr ⟨r, c, by rw [hr, Bool.bne_false]; exact h, h'⟩

theorem rowsSet_eq_any (f : Nat → Byte) (m a row col : Nat) (r : Fin 32) (c : Fin 64) :
    rowsSet ((List.range' a m).map f) row col r c =
      (List.range' a m).any fun j => rowSets (f j) (row + (j - a)) col 8 r c := by
  induction m generalizing a row with
  | zero => rfl
  | succ m ih =>
    rw [List.range'_succ, List.map_cons, rowsSet, ih, List.any_cons, Nat.sub_self, Nat.add_zero]
    congr 1
    rw [Bool.eq_iff_iff, List.any_eq_true, List.any_eq_true]
    constructor <;> rintro ⟨j, hj, h⟩ <;> refine ⟨j, hj, ?_⟩ <;>
      (have := (List.mem_range'_1.1 hj).1)
    · rwa [show row + (j - a) = row + 1 + (j - (a + 1)) by omega]
    · rwa [show row + 1 + (j - (a + 1)) = row + (j - a) by omega]

/-- The rows a draw takes from memory set exactly the pixels of the spec's target-pixel and sprite-bit rules. -/
theorem rowsSet_memBlock (s : State) (x y : Reg) (n : Nat) (r : Fin 32) (c : Fin 64) :
    rowsSet (s.memBlock s.I.toNat n) (s.reg y).toNat (s.reg x).toNat r c = spriteSets s x y n r c := by
  rw [State.memBlock, List.range_eq_range', rowsSet_eq_any]
  unfold spriteSets rowSets
  simp only [Nat.sub_zero, List.range_eq_range', State.memByte, busAddress, spriteBit, wrapRow, wrapCol, Fin.ext_iff,
    Fin.val_ofNat]

end Sys2Proof.Machine
end

