-- ==== Sys2Proof/Laws/Run.lean ====
section
/-! SUPPORT. Runs of the machine as the host runs it (Host.Core.run): unfolding at the first step and at the last, and the
induction over the steps of a run, once. -/

namespace Sys2Proof.Machine

theorem run_zero (s : State) : Host.Core.run core 0 s = .next s := rfl

/-- One step and then the rest, for any machine of the host's form. -/
theorem core_run_succ (M : Host.Core) (n : Nat) {s t : M.State} (h : M.step s = .next t) :
    M.run (n + 1) s = M.run n t := by
  rw [Host.Core.run, h]

theorem run_succ_of_next {s t : State} (n : Nat) (h : step s = .next t) :
    Host.Core.run core (n + 1) s = Host.Core.run core n t := core_run_succ core n h

theorem run_one {s t : State} (h : step s = .next t) : Host.Core.run core 1 s = .next t := run_succ_of_next 0 h

/-- Induction over the steps of a run: a claim `P` that a step keeps, and in whose states every step ends in a next state,
holds after any number of steps. -/
theorem run_induction (P : Nat → State → Prop) (hstep : ∀ k s, P k s → ∃ t, step s = .next t ∧ P (k + 1) t)
    (n k : Nat) (s : State) (h : P k s) : ∃ t, Host.Core.run core n s = .next t ∧ P (k + n) t := by
  induction n generalizing k s with
  | zero => exact ⟨s, rfl, h⟩
  | succ n ih =>
    obtain ⟨t, ht, hp⟩ := hstep k s h
    obtain ⟨u, hu, hq⟩ := ih (k + 1) t hp
    exact ⟨u, by rw [run_succ_of_next n ht, hu], by rwa [show k + (n + 1) = k + 1 + n by omega]⟩

end Sys2Proof.Machine
end

