-- ==== Sys2Proof/Tests/Slice0.lean ====
section
/-! SUPPORT. The model's own tests, one step each, on the vectors of 95_test_vectors.md; the decoding of words written out
from R84; the ill-formed terms; and a witness for every hypothesis of the obligations. -/

namespace Sys2Proof.Tests
open Sys2Proof Sys2Proof.Machine

/-! ### Helpers -/

/-- The next state of an outcome, if it is one. -/
def nx : Outcome → Option State
  | .next s => some s
  | _ => none

/-- The word `w` where the next step fetches it. -/
def here (w : Nat) (s : State) : State := s.withFetchWord 16 w

/-- Reset with registers set. -/
def regs (l : List (Reg × Byte)) : State := l.foldl (fun s p => s.setReg p.1 p.2) State.reset

/-- A byte of memory set. -/
def poke (a : Nat) (b : Byte) (s : State) : State := { s with mem := s.mem.write a b }

/-- A display byte set. -/
def paint (n : Nat) (b : Byte) (s : State) : State := { s with disp := s.disp.set! n b }

/-- What a step leaves, looked at through `f`. -/
def sees {α : Type} (s : State) (f : State → α) : Option α := (nx (step s)).map f

/-- What an instruction leaves, looked at through `f`. -/
def leaves {α : Type} (i : Instr) (s : State) (f : State → α) : Option α := (nx (exec i s)).map f

/-- The other values of the parameters of R8. -/
def tick60 : Config := { hardware with timerPolicy := .tick60 }
def memFault : Config := { hardware with memOob := .fault }
def keyFault : Config := { hardware with keyOob := .fault }

/-! ### Well-formedness -/

theorem test_wf_refuses_a_row_count_above_15 : WellFormed (.drw 0 0 16) = false := by decide
theorem test_wf_accepts_a_row_count_of_15 : WellFormed (.drw 0 0 15) = true := by decide

/-! ### Decoding: words written out from the encodings of R84 -/

theorem test_decode_low :
    decodeWord 0b0000000011100000 = .ok .cls ∧ decodeWord 0b0000000011101110 = .ok .ret ∧
    decodeWord 0b0001101010111100 = .ok (.jp 0xABC) ∧ decodeWord 0b0010001100000000 = .ok (.call 0x300) ∧
    decodeWord 0b0011101001000010 = .ok (.seImm 0xA 0x42) ∧ decodeWord 0b0100101001000010 = .ok (.sneImm 0xA 0x42) ∧
    decodeWord 0b0101000100100000 = .ok (.seReg 1 2) ∧ decodeWord 0b0110101001011100 = .ok (.ldImm 0xA 0x5C) ∧
    decodeWord 0b0111000011111111 = .ok (.addImm 0 0xFF) := by decide

theorem test_decode_alu :
    decodeWord 0b1000000100100000 = .ok (.ldReg 1 2) ∧ decodeWord 0b1000000100100001 = .ok (.orReg 1 2) ∧
    decodeWord 0b1000000100100010 = .ok (.andReg 1 2) ∧ decodeWord 0b1000000100100011 = .ok (.xorReg 1 2) ∧
    decodeWord 0b1000000100100100 = .ok (.addReg 1 2) ∧ decodeWord 0b1000000100100101 = .ok (.sub 1 2) ∧
    decodeWord 0b1000000100110110 = .ok (.shr 1 3) ∧ decodeWord 0b1000000100100111 = .ok (.subn 1 2) ∧
    decodeWord 0b1000000100111110 = .ok (.shl 1 3) := by decide

theorem test_decode_high :
    decodeWord 0b1001000100100000 = .ok (.sneReg 1 2) ∧ decodeWord 0b1010001011110000 = .ok (.ldI 0x2F0) ∧
    decodeWord 0b1011001100000000 = .ok (.jpV0 0x300) ∧ decodeWord 0b1100001100001111 = .ok (.rnd 3 0x0F) ∧
    decodeWord 0b1101000100101111 = .ok (.drw 1 2 15) ∧ decodeWord 0b1110001010011110 = .ok (.skp 2) ∧
    decodeWord 0b1110001010100001 = .ok (.sknp 2) := by decide

theorem test_decode_f :
    decodeWord 0b1111001100000111 = .ok (.ldVxDT 3) ∧ decodeWord 0b1111010100001010 = .ok (.ldVxK 5) ∧
    decodeWord 0b1111001100010101 = .ok (.ldDTVx 3) ∧ decodeWord 0b1111001100011000 = .ok (.ldSTVx 3) ∧
    decodeWord 0b1111000100011110 = .ok (.addI 1) ∧ decodeWord 0b1111010000101001 = .ok (.ldF 4) ∧
    decodeWord 0b1111001000110011 = .ok (.ldB 2) ∧ decodeWord 0b1111001001010101 = .ok (.ldMemVx 2) ∧
    decodeWord 0b1111001001100101 = .ok (.ldVxMem 2) := by decide

/-- R88, R93: words next to an instruction that are none (V123 to V127, V18, V21, V60, V61, V67, V85). -/
theorem test_decode_invalid :
    [0x0000, 0x0123, 0x00EF, 0x01E0, 0x5121, 0x9121, 0x8128, 0x812F, 0xE000, 0xE09F, 0xF000, 0xFFFF].all
      (fun w => decodeWord (BitVec.ofNat 16 w) == .error .invalidOpcode) = true := by decide

/-- R61: the high byte comes first; one byte is no word. -/
theorem test_decode_bytes :
    decode [0x60, 0x05, 0xAA] = .ok (.ldImm 0 5, [0xAA]) ∧ decode [0x60] = .error .truncated ∧
    decodeTableWord 16 0x6005 = some (.ldImm 0 5) ∧ decodeTableWord 16 0x0000 = none := by decide

/-- Every row of the table has a word. -/
theorem test_rows_are_inhabited : opcodeTable.all (fun r => r.matchesWord r.pattern) = true := by decide

/-! ### Control flow (V1 to V25) -/

theorem test_V2_ret :
    sees (here 0x00EE { State.reset with sp := 3, stack := State.reset.stack.set 2 0x500 }) (fun t => (t.pc, t.sp)) =
      some (0x502, 2) := by decide
theorem test_V3_ret_underflow :
    sees (here 0x00EE State.reset) (fun t => (t.pc, t.sp, t.fault)) = some (0x200, 0, 3) := by decide
theorem test_V5_jp : sees (here 0x1ABC State.reset) (·.pc) = some 0xABC := by decide
theorem test_V9_call :
    sees (here 0x2400 { State.reset with sp := 15 }) (fun t => (t.pc, t.sp, t.stack[15])) = some (0x400, 16, 0x200) := by
  decide
theorem test_V10_call_overflow :
    sees (here 0x2400 { State.reset with sp := 16 }) (fun t => (t.pc, t.sp, t.fault)) = some (0x200, 16, 2) := by decide
theorem test_V11_seImm : sees (here 0x3A42 (regs [(0xA, 0x42)])) (·.pc) = some 0x204 := by decide
theorem test_V14_sneImm : sees (here 0x4A42 (regs [(0xA, 0x41)])) (·.pc) = some 0x204 := by decide
theorem test_V16_seReg : sees (here 0x5120 (regs [(1, 7), (2, 8)])) (·.pc) = some 0x202 := by decide
theorem test_V19_sneReg : sees (here 0x9120 (regs [(1, 7), (2, 8)])) (·.pc) = some 0x204 := by decide
theorem test_V23_jpV0 : sees (here 0xBFFF (regs [(0, 0xFF)])) (·.pc) = some 0x10FE := by decide

/-! ### ALU (V26 to V64) -/

theorem test_V26_ldImm : sees (here 0x6A5C State.reset) (fun t => (t.reg 0xA, t.pc)) = some (0x5C, 0x202) := by decide
theorem test_V28_addImm :
    sees (here 0x70FF (regs [(0, 1), (VF, 0x55)])) (fun t => (t.reg 0, t.reg VF)) = some (0, 0x55) := by decide
theorem test_V30_ldReg : sees (here 0x8120 (regs [(2, 0x9A)])) (·.reg 1) = some 0x9A := by decide
theorem test_V31_orReg :
    sees (here 0x8121 (regs [(1, 0xF0), (2, 0x0F), (VF, 0x33)])) (fun t => (t.reg 1, t.reg VF)) = some (0xFF, 0x33) := by
  decide
theorem test_V32_andReg : sees (here 0x8122 (regs [(1, 0xF3), (2, 0x3F)])) (·.reg 1) = some 0x33 := by decide
theorem test_V33_xorReg : sees (here 0x8123 (regs [(1, 0xFF), (2, 0x0F)])) (·.reg 1) = some 0xF0 := by decide
theorem test_V35_addReg :
    sees (here 0x8124 (regs [(1, 0xC8), (2, 0x64)])) (fun t => (t.reg 1, t.reg VF)) = some (0x2C, 1) := by decide
theorem test_V40_addReg_into_VF : sees (here 0x8F14 (regs [(1, 0xFF), (VF, 5)])) (·.reg VF) = some 4 := by decide
theorem test_V43_sub :
    sees (here 0x8125 (regs [(1, 3), (2, 0xA), (VF, 1)])) (fun t => (t.reg 1, t.reg VF)) = some (0xF9, 0) := by decide
theorem test_V44_sub_equal :
    sees (here 0x8125 (regs [(1, 7), (2, 7), (VF, 1)])) (fun t => (t.reg 1, t.reg VF)) = some (0, 0) := by decide
theorem test_V50_shr_ignores_y :
    sees (here 0x8136 (regs [(1, 1), (3, 0xFE)])) (fun t => (t.reg 1, t.reg VF)) = some (0, 1) := by decide
theorem test_V52_subn :
    sees (here 0x8127 (regs [(1, 3), (2, 0xA)])) (fun t => (t.reg 1, t.reg VF)) = some (7, 1) := by decide
theorem test_V56_shl : sees (here 0x810E (regs [(1, 0x81)])) (fun t => (t.reg 1, t.reg VF)) = some (2, 1) := by decide
theorem test_V62_rnd :
    sees (here 0xC30F { State.reset with rndIn := [0xA7] }) (fun t => (t.reg 3, t.rndIn)) = some (7, []) := by decide

/-! ### Display (V65 to V79) -/

theorem test_V65_cls :
    sees (here 0x00E0 (paint 100 0x81 State.reset)) (fun t => (t.disp[100], t.dirty, t.pc)) = some (0, true, 0x202) := by
  decide
theorem test_V69_drw_wraps :
    sees (here 0xD121 (poke 0x300 0xFF { regs [(1, 0x3F), (2, 0x1F)] with I := 0x300 }))
      (fun t => (t.disp[248], t.disp[255], t.reg VF, t.dirty)) = some (0xFE, 1, 0, true) := by decide
theorem test_V72_drw_collides :
    (nx (exec (.drw 0 0 1) (poke 0x300 0xC0 { State.reset with I := 0x300 }))).bind (fun s =>
      leaves (.drw 0 0 1) { s with mem := Memory.write [] 0x300 0x80 } (fun t => (t.disp[0], t.reg VF))) =
      some (0x40, 1) := by decide

/-! ### Keys and timers (V80 to V98, W1) -/

theorem test_V84_skp_masks :
    sees (here 0xE29E { regs [(2, 0x15)] with keys := 0x20 }) (·.pc) = some 0x204 := by decide
theorem test_V83_sknp : sees (here 0xE2A1 { regs [(2, 5)] with keys := 0x20 }) (·.pc) = some 0x202 := by decide
theorem test_V86_ldVxDT :
    sees (here 0xF307 { State.reset with dt := 0x20 }) (fun t => (t.reg 3, t.dt)) = some (0x20, 0x1F) := by decide
theorem test_V93_ldVxK_waits :
    sees (here 0xF50A { State.reset with dt := 5, st := 1 }) (fun t => (t.pc, t.keyWait, t.dt, t.st)) =
      some (0x200, true, 4, 0) := by decide
theorem test_V94_ldVxK_highest :
    sees (here 0xF50A { State.reset with keys := 0x208, keyWait := true }) (fun t => (t.reg 5, t.pc, t.keyWait)) =
      some (9, 0x202, false) := by decide
theorem test_V89_ldDTVx : sees (here 0xF315 (regs [(3, 0x3C)])) (·.dt) = some 0x3B := by decide
theorem test_W1_ldDTVx_tick60 : sees (here 0xF315 { regs [(3, 0x3C)] with cfg := tick60 }) (·.dt) = some 0x3C := by
  decide
theorem test_V92_ldSTVx : sees (here 0xF318 (regs [(3, 2)])) (·.st) = some 1 := by decide

/-! ### Index register and memory (V99 to V122, W7) -/

theorem test_V100_ldI : sees (here 0xAFFF State.reset) (·.I) = some 0xFFF := by decide
theorem test_V102_addI :
    sees (here 0xF11E { regs [(1, 0x10)] with I := 0xFFA }) (fun t => (t.I, t.reg VF)) = some (0x100A, 1) := by decide
theorem test_V106_addI_of_VF :
    sees (here 0xFF1E { regs [(VF, 0x10)] with I := 0xFF8 }) (fun t => (t.I, t.reg VF)) = some (0x1008, 1) := by decide
theorem test_V110_ldF_unmasked : sees (here 0xF429 (regs [(4, 0xFF)])) (·.I) = some 0x4FB := by decide
theorem test_V111_ldB :
    sees (here 0xF233 { regs [(2, 0xFE)] with I := 0x300 })
      (fun t => (t.mem.read 0x300, t.mem.read 0x301, t.mem.read 0x302)) = some (2, 5, 4) := by decide
theorem test_W7_ldB_address_range :
    sees (here 0xF233 { regs [(2, 0x7B)] with I := 0xFFE, cfg := memFault }) (fun t => (t.fault, t.mem.read 0xFFE, t.pc)) =
      some (4, 0, 0x200) := by decide
theorem test_V118_ldMemVx_wraps :
    sees (here 0xF155 { regs [(0, 0x11), (1, 0x22)] with I := 0xFFF })
      (fun t => (t.I, t.mem.read 0xFFF, t.mem.read 0)) = some (0x1001, 0x11, 0x22) := by decide
theorem test_V119_ldVxMem :
    sees (here 0xF265 (poke 0x402 3 (poke 0x401 2 (poke 0x400 1 { regs [(3, 9)] with I := 0x400 }))))
      (fun t => (t.reg 0, t.reg 1, t.reg 2, t.reg 3, t.I)) = some (1, 2, 3, 9, 0x403) := by decide

/-! ### Faults and fetch (V123 to V130) -/

theorem test_V128_the_first_code_stays : sees (here 0x0000 { State.reset with fault := 3 }) (·.fault) = some 3 := by decide
theorem test_V130_fetch_wraps :
    sees (here 0x6005 { State.reset with pc := 0xFFF }) (fun t => (t.reg 0, t.pc, t.mem.read 0)) =
      some (5, 0x1001, 5) := by decide
/-- R284: with no program loaded the first step after reset raises InvalidOpcode and PC stays. -/
theorem test_R284_no_program : sees State.reset (fun t => (t.fault, t.pc)) = some (1, 0x200) := by decide
/-- W14: no key of that number. -/
theorem test_W14_key_index_range :
    sees (here 0xE29E { regs [(2, 0x15)] with keys := 0x20, cfg := keyFault }) (fun t => (t.fault, t.pc)) =
      some (5, 0x200) := by decide

/-! ### Memory's canonical form -/

/-- Writing what an address reads as unlisted removes the cell; cells stand in address order. -/
theorem test_memory_form :
    ((Memory.write [] 0x300 7).write 0x300 0 = [] ∧ Memory.write [] 0 0xF0 = [] ∧
      (Memory.write [] 0x300 7).write 0x200 8 = [(0x200, 8), (0x300, 7)]) := by decide

/-! ### Witnesses: a state and operands for every hypothesis of the obligations -/

theorem fetchable_of_wrap {s : State} (h : s.cfg.memOob = .wrap) : s.fetchable := fun e => by rw [h] at e; cases e

/-- DecodeOfEncodeIsTheInstruction, EncodeOfDecodeIsTheWord. -/
theorem witness_well_formed : WellFormed (.drw 1 2 15) = true ∧ decodeWord 0xD12F = .ok (.drw 1 2 15) := by decide

/-- StepRunsTheDecodedInstruction. -/
theorem witness_decoded_at_pc :
    (here 0x6005 State.reset).fetchable ∧ decodeWord (here 0x6005 State.reset).wordAtPc = .ok (.ldImm 0 5) :=
  ⟨fetchable_of_wrap rfl, by decide⟩

/-- EveryStepCountsTheTimersLast, KeyWaitIsTheWaitingFx0A, StepNeverWritesKeysNorClearsDirty,
EveryStepKeepsTheInvariant: a step ends in a next state, by an instruction or by a fault, under either policy. -/
theorem witness_step :
    (nx (step (here 0x6005 State.reset))).isSome = true ∧ (nx (step (here 0xFFFF State.reset))).isSome = true ∧
    (nx (step (here 0x6005 { State.reset with cfg := tick60 }))).isSome = true := by decide

/-- FaultingStepChangesOnlyTimersAndStatus, FaultRepeatsUntilResetOrLoad: each code of R251, and a code recorded before. -/
theorem witness_stepFault :
    stepFault (here 0xFFFF State.reset) = some .invalidOpcode ∧
    stepFault (here 0x2400 { State.reset with sp := 16 }) = some .stackOverflow ∧
    stepFault (here 0x00EE State.reset) = some .stackUnderflow ∧
    stepFault { State.reset with pc := 0xFFF, cfg := memFault } = some .addressRange ∧
    stepFault (here 0xE29E { regs [(2, 0x10)] with cfg := keyFault }) = some .keyIndexRange ∧
    stepFault (here 0xFFFF { State.reset with fault := 3 }) = some .invalidOpcode := by decide

/-- FaultRegisterIsWrittenByFaultsOnly: no fault, with a code recorded and with none. -/
theorem witness_no_stepFault :
    stepFault (here 0x6005 { State.reset with fault := 3 }) = none ∧
    sees (here 0x6005 { State.reset with fault := 3 }) (·.fault) = some 3 ∧
    stepFault (here 0x6005 State.reset) = none ∧
    stepFault { State.reset with pc := 0xFFE, cfg := memFault } = some .invalidOpcode := by decide

/-- EachStateIsWrittenByItsNamedWriters: each of the states does change. -/
theorem witness_writers :
    leaves (.ldI 0x300) State.reset (fun t => t.I != State.reset.I) = some true ∧
    leaves (.ldDTVx 1) (regs [(1, 9)]) (fun t => t.dt != 0) = some true ∧
    leaves (.ldSTVx 1) (regs [(1, 9)]) (fun t => t.st != 0) = some true ∧
    leaves (.call 0x300) State.reset (fun t => (t.sp != 0, t.stack[0] != 0)) = some (true, true) ∧
    leaves (.drw 0 0 1) State.reset (fun t => t.disp[0] != 0) = some true ∧
    leaves (.ldB 1) { regs [(1, 200)] with I := 0x300 } (fun t => t.mem.read 0x300 != 0) = some true := by decide

/-- OnlyFlagWritersOverwriteVF: VF does change, by a flag and as a destination. -/
theorem witness_VF_changes :
    leaves (.addReg 1 2) (regs [(1, 0xFF), (2, 1)]) (fun t => t.reg VF != 0) = some true ∧
    leaves (.ldImm VF 7) State.reset (fun t => t.reg VF != 0) = some true := by decide

/-- StatusBitsAndSoundTimerAreNotRead: two states that differ in all four, the first of which steps on. -/
theorem witness_status_bits :
    let s := here 0x6005 State.reset
    let s' := { s with st := 9, dirty := true, keyWait := true, fault := 2 }
    s' = { s with st := s'.st, dirty := s'.dirty, keyWait := s'.keyWait, fault := s'.fault } ∧
      (nx (step s)).isSome = true := ⟨rfl, by decide⟩

/-- RetPopsAndSkipsTheCall, CallPushesItsOwnAddress, CallThenRetReturnsAfterTheCall: SP at its ends, 0, 1, 15 and 16. -/
theorem witness_stack :
    (0#5).toNat = 0 ∧ (1 ≤ (1#5).toNat ∧ (1#5).toNat ≤ 16) ∧ (1 ≤ (16#5).toNat ∧ (16#5).toNat ≤ 16) ∧
    (15#5).toNat < 16 ∧ (16#5).toNat = 16 ∧
    leaves .ret { State.reset with sp := 16, stack := State.reset.stack.set 15 0x300 } (fun t => (t.pc, t.sp)) =
      some (0x302, 15) ∧
    leaves (.call 0x300) { State.reset with sp := 15 } (fun t => (t.pc, t.sp)) = some (0x300, 16) := by decide

/-- CallAndRetStopWhereNoStackEntryExists: SP 17 and 31. -/
theorem witness_stack_index_range :
    16 < (17#5).toNat ∧ 16 < (31#5).toNat ∧ (nx (exec .ret { State.reset with sp := 17 })).isNone = true ∧
    (nx (exec (.call 0) { State.reset with sp := 31 })).isNone = true := by decide

/-- VFAsOperandOfTheFlagWriters. -/
theorem witness_not_VF : (0 : Reg) ≠ VF ∧ (14 : Reg) ≠ VF := by decide

/-- StepUsesItsByteInRndOnly: a step that runs an Cxkk, and one that runs none. -/
theorem witness_rnd :
    (here 0xC30F State.reset).fetchable ∧ decodeWord (here 0xC30F State.reset).wordAtPc = .ok (.rnd 3 0x0F) ∧
    ¬ ∃ x kk, decodeWord (here 0x00E0 State.reset).wordAtPc = .ok (.rnd x kk) := by
  refine ⟨fetchable_of_wrap rfl, by decide, ?_⟩
  rintro ⟨x, kk, h⟩
  rw [show decodeWord (here 0x00E0 State.reset).wordAtPc = .ok .cls by decide] at h
  cases h

/-- RndMasksTheStepsByte: a byte the host supplies. -/
theorem witness_rnd_byte : ({ State.reset with rndIn := [0xA7] } : State).rndIn = 0xA7 :: [] := rfl

/-- DrawInvertsTheSpritesPixels, BcdStoresThreeDigits, StoreBlockStoresV0ToVx, LoadBlockLoadsV0ToVx: the last access that
is in range and the first that is not; no access of 0 bytes is out of range. -/
theorem witness_outOfRange :
    ({ State.reset with cfg := memFault } : State).outOfRange 0xFFF 1 = false ∧
    ({ State.reset with cfg := memFault } : State).outOfRange 0xFFF 2 = true ∧
    ({ State.reset with cfg := memFault } : State).outOfRange 0x1000 0 = false ∧
    ({ State.reset with cfg := memFault } : State).outOfRange 0xFFD 3 = false ∧
    ({ State.reset with cfg := memFault } : State).outOfRange 0xFFE 3 = true ∧
    ({ State.reset with cfg := memFault } : State).outOfRange 0xFF0 16 = false ∧
    ({ State.reset with cfg := memFault } : State).outOfRange 0xFF1 16 = true ∧
    State.reset.outOfRange 0xFFF 15 = false := by decide

/-- DrawingTwiceRestoresTheDisplay: glyph 0 drawn, and the same draw again in the state it leaves. -/
theorem witness_draw_twice :
    (0 : Nat) ≤ 15 ∧ (5 : Nat) ≤ 15 ∧ State.reset.outOfRange State.reset.I.toNat 5 = false ∧
    leaves (.drw 0 0 5) State.reset (fun t => (t.I, t.reg 0, t.disp[0], t.reg VF)) = some (0, 0, 0xF0, 0) ∧
    spriteSets State.reset 0 0 5 0 0 = true ∧
    ((nx (exec (.drw 0 0 5) State.reset)).bind fun t => leaves (.drw 0 0 5) t (fun u => (u.disp[0], u.reg VF))) =
      some (0, 1) := by decide

/-- KeySkips: 0xF names a key, 0x10 none. -/
theorem witness_noSuchKey :
    ({ regs [(2, 0xF)] with cfg := keyFault } : State).noSuchKey 2 = false ∧
    ({ regs [(2, 0x10)] with cfg := keyFault } : State).noSuchKey 2 = true ∧
    (regs [(2, 0x10)]).noSuchKey 2 = false := by decide

/-- KeyWaitTakesTheHighestKey, KeysSetBeforeAStepResolveItsWait: no key; key 0 the highest; key 15 the highest. -/
theorem witness_keys :
    (∀ k < 16, (0#16).getLsbD k = false) ∧ ((1#16).getLsbD 0 = true ∧ ∀ j < 16, 0 < j → (1#16).getLsbD j = false) ∧
    ((0xFFFF#16).getLsbD 15 = true ∧ ∀ j < 16, 15 < j → (0xFFFF#16).getLsbD j = false) ∧
    decodeWord (here 0xF50A State.reset).wordAtPc = .ok (.ldVxK 5) := by decide

/-- TimerWrittenInAStepIsDecrementedInIt: an Fx15 with an Fx07 after it, and an Fx18. -/
theorem witness_timers :
    State.reset.cfg.timerPolicy = .perStep ∧
    decodeWord (here 0xF315 (poke 0x202 0xF4 (poke 0x203 0x07 State.reset))).wordAtPc = .ok (.ldDTVx 3) ∧
    sees (here 0xF315 (poke 0x202 0xF4 (poke 0x203 0x07 State.reset))) (fun t => decodeWord t.wordAtPc == .ok (.ldVxDT 4)) =
      some true ∧
    decodeWord (here 0xF318 State.reset).wordAtPc = .ok (.ldSTVx 3) := by decide

/-- StoredBlockLoadsBack: the state a store leaves, with I set back. -/
theorem witness_stored_block :
    State.reset.outOfRange State.reset.I.toNat (15 + 1) = false ∧
    ((nx (exec (.ldMemVx 15) (regs [(3, 7)]))).bind fun t => leaves (.ldVxMem 15) { t with I := 0 } (·.reg 3)) = some 7 := by
  decide

/-- StoreIsSeenByTheNextFetch: V0 and V1 stored at the word after an F155 at 0x206. -/
theorem witness_store_and_fetch :
    let s := { regs [(0, 0x12), (1, 0x08)] with pc := 0x206, I := 0x208 }
    s.pc.toNat + 3 ≤ 0xFFF ∧ s.I.toNat + (0 : Reg).val = s.pc.toNat + 2 ∧ s.I.toNat + (1 : Reg).val ≤ 0xFFF ∧
      leaves (.ldMemVx 1) s (fun t => (t.mem.read 0x208, t.mem.read 0x209, t.pc)) = some (0x12, 0x08, 0x208) := by decide

/-- EveryStoredByteIsSeenByTheNextFetch: an Fx33 that stores over the low byte of the next word only. -/
theorem witness_store_one_byte :
    let s := here 0xF233 { regs [(2, 0x7B)] with I := 0x203 }
    decodeWord s.wordAtPc = .ok (.ldB 2) ∧ s.outOfRange s.I.toNat (bcdDigits (s.reg 2)).length = false ∧
      sees s (fun t => (t.pc, t.wordAtPc)) = some (0x202, 0x0001) := by decide

/-- EveryStoredByteIsSeenByTheNextFetch: an Fx55 at 0xFFE that wraps, under a fetch that wraps. -/
theorem witness_store_wraps :
    let s := here 0xF155 { regs [(0, 0x12), (1, 0x34)] with pc := 0xFFE, I := 0x1FFF }
    decodeWord s.wordAtPc = .ok (.ldMemVx 1) ∧ s.outOfRange s.I.toNat (s.regBlock 1).length = false ∧
      sees s (fun t => (t.pc, t.wordAtPc)) = some (0x1000, 0x3490) := by decide

/-- The hypotheses on the fetch in both. -/
theorem witness_store_fetchable :
    (here 0xF233 { regs [(2, 0x7B)] with I := 0x203 }).fetchable ∧
    (here 0xF155 { regs [(0, 0x12), (1, 0x34)] with pc := 0xFFE, I := 0x1FFF }).fetchable :=
  ⟨fetchable_of_wrap rfl, fetchable_of_wrap rfl⟩

/-- PowerOnIsTheResetState, LoadChecksThenResetsThenCopies, TickCountsTimersUnderTick60. -/
theorem witness_host :
    State.reset.cfg = hardware ∧ (List.replicate 3584 (0 : Byte)).length ≤ 3584 ∧
    3584 < (List.replicate 3585 (0 : Byte)).length ∧
    ({ State.reset with cfg := tick60 } : State).cfg.timerPolicy = .tick60 ∧ State.reset.cfg.timerPolicy = .perStep :=
  ⟨rfl, by rw [List.length_replicate], by rw [List.length_replicate]; decide, rfl, rfl⟩

/-- EveryStepKeepsTheInvariant, EveryHostOperationKeepsTheInvariant, NoRunStops: a state with a full stack, a recorded fault
and a listed byte that satisfies the invariant. -/
theorem witness_inv : (poke 0x300 7 { State.reset with sp := 16, fault := 5 }).Inv :=
  ⟨by decide, by decide, show (Memory.write [] 0x300 7).wf from Memory.wf_write 7 Memory.wf_nil (by decide)⟩

/-- EveryHostOperationKeepsTheInvariant, FaultRepeatsUntilResetOrLoad: an operation that answers. -/
theorem witness_perform : perform (.setKeys 0x8001) State.reset = .next (opSetKeys 0x8001 State.reset, .none) := rfl

/-- ParkedMachineChangesOnlyTimers: a jump to itself. -/
theorem witness_parked : (here 0x1200 State.reset).parked :=
  ⟨fetchable_of_wrap rfl, 0x200, by decide, by decide⟩

end Sys2Proof.Tests
end

section
/-! PROOFS. What an instruction can do to the state, said once: the inversion of `exec`. -/

namespace Sys2Proof.Machine

/-- The instruction loads a value into `V[x]` and writes no flag (R141 to R146, R153, R194). -/
def LoadsReg (i : Instr) (x : Reg) : Prop :=
  (∃ kk, i = .ldImm x kk ∨ i = .addImm x kk ∨ i = .rnd x kk) ∨
  (∃ y, i = .ldReg x y ∨ i = .orReg x y ∨ i = .andReg x y ∨ i = .xorReg x y) ∨ i = .ldVxDT x

/-- The instruction writes a flag and then `V[x]` (R147 to R151). -/
def FlagsReg (i : Instr) (x : Reg) : Prop :=
  ∃ y, i = .addReg x y ∨ i = .sub x y ∨ i = .shr x y ∨ i = .subn x y ∨ i = .shl x y

/-- The instruction writes PC only (R112, R114 to R118, R192, R193). -/
def SetsPcOnly (i : Instr) : Prop :=
  (∃ a, i = .jp a ∨ i = .jpV0 a) ∨ (∃ x kk, i = .seImm x kk ∨ i = .sneImm x kk) ∨
  (∃ x y, i = .seReg x y ∨ i = .sneReg x y) ∨ ∃ x, i = .skp x ∨ i = .sknp x

/-- `Effect s i t`: the ways an instruction `i` that ends in a next state leads from `s` to `t`. Which parts of the state are
written, and by which instruction, is said; a value written is left open where no claim about writers needs it. -/
inductive Effect (s : State) : Instr → State → Prop
  | fault (i : Instr) (c : FaultCode) (h : instrFault s i = some c) : Effect s i (s.recordFault c)
  | jump (i : Instr) (p : Word) (h : SetsPcOnly i) : Effect s i { s with pc := p }
  | load (i : Instr) (x : Reg) (b : Byte) (h : LoadsReg i x) : Effect s i (s.setReg x b).advance
  | flagged (i : Instr) (x : Reg) (f b : Byte) (h : FlagsReg i x) : Effect s i (s.setFlagAndReg x f b).advance
  | ret (p : Word) (h : s.sp ≠ 0) : Effect s .ret { s with sp := s.sp - 1, pc := p }
  | call (nnn : Addr) (stack : Vector Word 16) (h : s.sp.toNat < 16) :
      Effect s (.call nnn) { s with stack := stack, sp := s.sp + 1, pc := zextAddr nnn }
  | cls (d : Display) : Effect s .cls ({ s with disp := d, dirty := true }).advance
  | drw (x y : Reg) (n : Nat) (f : Byte) (d : Display) :
      Effect s (.drw x y n) ({ s.setReg VF f with disp := d, dirty := true }).advance
  | ldI (nnn : Addr) : Effect s (.ldI nnn) ({ s with I := zextAddr nnn }).advance
  | addI (x : Reg) (f : Byte) (a : Word) : Effect s (.addI x) ({ s.setReg VF f with I := a }).advance
  | ldF (x : Reg) (a : Word) : Effect s (.ldF x) ({ s with I := a }).advance
  | ldB (x : Reg) (a : Nat) (bs : List Byte) : Effect s (.ldB x) { s with mem := s.mem.writeBlock a bs, pc := s.pc + 2 }
  | ldMemVx (x : Reg) (a : Nat) (bs : List Byte) :
      Effect s (.ldMemVx x) { s with mem := s.mem.writeBlock a bs, I := s.indexPast x, pc := s.pc + 2 }
  | ldVxMem (x : Reg) (a : Nat) :
      Effect s (.ldVxMem x) { s with v := s.loadRegs x a, I := s.indexPast x, pc := s.pc + 2 }
  | wait (x : Reg) : Effect s (.ldVxK x) { s with keyWait := true }
  | key (x : Reg) (b : Byte) : Effect s (.ldVxK x) ({ s.setReg x b with keyWait := false }).advance
  | ldDTVx (x : Reg) (b : Byte) : Effect s (.ldDTVx x) ({ s with dt := b }).advance
  | ldSTVx (x : Reg) (b : Byte) : Effect s (.ldSTVx x) ({ s with st := b }).advance

/-- A fault that a condition gives did not arise, so the condition fails. -/
theorem not_of_ite_none {p : Prop} [Decidable p] {c : FaultCode} (h : (if p then some c else none) = none) : ¬ p :=
  fun hp => nomatch (if_pos hp).symm.trans h

/-- A RET that raises no underflow has an entry to pop (R111). -/
theorem sp_ne_zero_of_ret {s : State} (h : instrFault s .ret = none) : s.sp ≠ 0 :=
  fun e => not_of_ite_none h (by rw [e]; rfl)

/-- A CALL that raises no overflow does not find the stack full (R113). -/
theorem sp_ne_full_of_call {s : State} {nnn : Addr} (h : instrFault s (.call nnn) = none) : s.sp ≠ 16 :=
  fun e => not_of_ite_none h (by rw [e]; rfl)

/-- Inversion of `exec`: an instruction that ends in a next state had one of these effects. -/
theorem exec_effect {i : Instr} {s t : State} (ht : exec i s = .next t) : Effect s i t := by
  have of_eq {u : State} (hu : exec i s = .next u) (he : Effect s i u) : Effect s i t := by
    rw [hu] at ht
    cases ht
    exact he
  cases hf : instrFault s i with
  | some c => exact of_eq (exec_fault hf) (.fault i c hf)
  | none =>
    cases i with
    | cls => exact of_eq rfl (.cls _)
    | ret =>
      have h0 := sp_ne_zero_of_ret hf
      by_cases h1 : s.sp.toNat - 1 < 16
      · exact of_eq (exec_ret_pop h0 h1) (.ret _ h0)
      · rw [exec_ret_stop h0 h1] at ht; cases ht
    | jp a | seImm x kk | sneImm x kk | seReg x y | sneReg x y | jpV0 a =>
      exact of_eq rfl (.jump _ _ (by simp [SetsPcOnly]))
    | call nnn =>
      have h0 := sp_ne_full_of_call hf
      by_cases h1 : s.sp.toNat < 16
      · exact of_eq (exec_call_push nnn h0 h1) (.call nnn _ h1)
      · rw [exec_call_stop nnn h0 h1] at ht; cases ht
    | ldImm x kk | addImm x kk | rnd x kk | ldReg x y | orReg x y | andReg x y | xorReg x y | ldVxDT x =>
      exact of_eq rfl (.load _ _ _ (by simp [LoadsReg]))
    | addReg x y | sub x y | shr x y | subn x y | shl x y => exact of_eq rfl (.flagged _ _ _ _ (by simp [FlagsReg]))
    | ldI nnn => exact of_eq rfl (.ldI nnn)
    | drw x y n => exact of_eq (exec_drw_ok x y n (not_of_ite_none hf)) (.drw x y n _ _)
    | skp x => exact of_eq (exec_skp_ok x (not_of_ite_none hf)) (.jump _ _ (by simp [SetsPcOnly]))
    | sknp x => exact of_eq (exec_sknp_ok x (not_of_ite_none hf)) (.jump _ _ (by simp [SetsPcOnly]))
    | ldVxK x =>
      cases hk : s.pressedKey with
      | none => exact of_eq (exec_ldVxK_wait x hk) (.wait x)
      | some k => exact of_eq (exec_ldVxK_key x hk) (.key x _)
    | ldDTVx x => exact of_eq rfl (.ldDTVx x _)
    | ldSTVx x => exact of_eq rfl (.ldSTVx x _)
    | addI x => exact of_eq rfl (.addI x _ _)
    | ldF x => exact of_eq rfl (.ldF x _)
    | ldB x => exact of_eq (exec_ldB_ok x (not_of_ite_none hf)) (.ldB x _ _)
    | ldMemVx x => exact of_eq (exec_ldMemVx_ok x (not_of_ite_none hf)) (.ldMemVx x _ _)
    | ldVxMem x => exact of_eq (exec_ldVxMem_ok x (not_of_ite_none hf)) (.ldVxMem x _)

end Sys2Proof.Machine
end

section
/-! PROOFS. Noninterference, once for both parts of the state that instructions do not read: the status bits with the
sound timer, and the host's bytes. A part is hidden by putting it at a fixed value; a part is not read if hiding it
before an instruction or a step makes no difference to what is left after it when the part is hidden there too. -/

namespace Sys2Proof.Machine

/-- A part of the state: what a program never reads (R27, R29, R38), and the host's bytes `rnd` (R44). -/
inductive Part where
  | status
  | rnd

/-- The state with a part of it hidden. -/
def State.hide : Part → State → State
  | .status, s => { s with st := 0, dirty := false, keyWait := false, fault := 0 }
  | .rnd, s => { s with rndIn := [] }

/-- The outcome with a part of its next state hidden. -/
def hideNext (p : Part) : Outcome → Outcome
  | .next s => .next (s.hide p)
  | .fault r => .fault r
  | .refused r => .refused r

/-- The instruction reads the part: only Cxkk reads the host's bytes, and none the status (R44, R38). -/
def ReadsPart (p : Part) (i : Instr) : Prop := p = .rnd ∧ ∃ x kk, i = .rnd x kk

/-! ### The operations of a step under hiding -/

theorem State.hide_status_eq_iff {s s' : State} : s'.hide .status = s.hide .status ↔
    s' = { s with st := s'.st, dirty := s'.dirty, keyWait := s'.keyWait, fault := s'.fault } := by
  cases s; cases s'
  simp only [State.hide, State.mk.injEq]

theorem State.eq_of_hide_rnd {s s' : State} (h : s'.hide .rnd = s.hide .rnd) (hr : s'.rndIn = s.rndIn) : s' = s := by
  cases s; cases s'
  cases hr
  cases h
  rfl

@[simp] theorem State.hide_sp (p : Part) (s : State) : (s.hide p).sp = s.sp := by cases p <;> rfl

theorem State.hide_beginStep (p : Part) (s : State) : (s.hide p).beginStep.hide p = s.beginStep.hide p := by
  cases p <;> rfl

theorem State.hide_recordFault (p : Part) (s : State) (c : FaultCode) :
    ((s.hide p).recordFault c).hide p = (s.recordFault c).hide p := by
  cases p <;> rfl

theorem State.hide_endStep (p : Part) (s : State) : (s.hide p).endStep.hide p = s.endStep.hide p := by
  unfold State.endStep
  cases p <;> cases hp : s.cfg.timerPolicy <;> simp only [State.hide, hp] <;> rfl

theorem State.fetchInstr_hide (p : Part) (s : State) : (s.hide p).fetchInstr = s.fetchInstr := by
  cases p <;> rfl

theorem instrFault_hide (p : Part) (s : State) (i : Instr) : instrFault (s.hide p) i = instrFault s i := by
  cases p <;> cases i <;> rfl

/-! ### Instructions and steps under hiding -/

/-- Two ways to hide a part that agree on the next state agree on the outcome. -/
theorem hideNext_eq_of_next {p : Part} {o o' : Outcome} {u u' : State} (h : o = .next u) (h' : o' = .next u')
    (e : u.hide p = u'.hide p) : hideNext p o = hideNext p o' := by
  rw [h, h']
  exact congrArg Host.Outcome.next e

/-- Outcomes that agree up to a part are the same, or next states that agree up to the part. -/
theorem eq_or_next_of_hideNext_eq {p : Part} {o o' : Outcome} (h : hideNext p o = hideNext p o') :
    o = o' ∨ ∃ u u', o = .next u ∧ o' = .next u' ∧ u.hide p = u'.hide p := by
  cases o with
  | next u =>
    cases o' with
    | next u' => exact .inr ⟨u, u', rfl, rfl, Host.Outcome.next.inj h⟩
    | fault | refused => nomatch h
  | fault r =>
    cases o' with
    | fault r' => exact .inl h
    | next | refused => nomatch h
  | refused r =>
    cases o' with
    | refused r' => exact .inl h
    | next | fault => nomatch h

/-- An instruction that does not read a part does the same whatever the part holds, up to the part. -/
theorem exec_hide (p : Part) (i : Instr) (s : State) (hp : ¬ ReadsPart p i) :
    hideNext p (exec i (s.hide p)) = hideNext p (exec i s) := by
  cases hf : instrFault s i with
  | some c =>
    exact hideNext_eq_of_next (exec_fault ((instrFault_hide p s i).trans hf)) (exec_fault hf) (s.hide_recordFault p c)
  | none =>
    cases i with
    | ret =>
      have h0 := sp_ne_zero_of_ret hf
      by_cases h1 : s.sp.toNat - 1 < 16
      · exact hideNext_eq_of_next (exec_ret_pop (by simpa using h0) (by simpa using h1)) (exec_ret_pop h0 h1)
          (by cases p <;> rfl)
      · rw [exec_ret_stop h0 h1, exec_ret_stop (by simpa using h0) (by simpa using h1)]
    | call nnn =>
      have h0 := sp_ne_full_of_call hf
      by_cases h1 : s.sp.toNat < 16
      · exact hideNext_eq_of_next (exec_call_push nnn (by simpa using h0) (by simpa using h1))
          (exec_call_push nnn h0 h1) (by cases p <;> rfl)
      · rw [exec_call_stop nnn h0 h1, exec_call_stop nnn (by simpa using h0) (by simpa using h1)]
    | drw x y n =>
      have h := not_of_ite_none hf
      cases p <;> exact hideNext_eq_of_next (exec_drw_ok x y n h) (exec_drw_ok x y n h) rfl
    | skp x =>
      have h := not_of_ite_none hf
      cases p <;> exact hideNext_eq_of_next (exec_skp_ok x h) (exec_skp_ok x h) rfl
    | sknp x =>
      have h := not_of_ite_none hf
      cases p <;> exact hideNext_eq_of_next (exec_sknp_ok x h) (exec_sknp_ok x h) rfl
    | ldVxK x =>
      cases hk : s.pressedKey with
      | none => cases p <;> exact hideNext_eq_of_next (exec_ldVxK_wait x hk) (exec_ldVxK_wait x hk) rfl
      | some k => cases p <;> exact hideNext_eq_of_next (exec_ldVxK_key x hk) (exec_ldVxK_key x hk) rfl
    | ldB x =>
      have h := not_of_ite_none hf
      cases p <;> exact hideNext_eq_of_next (exec_ldB_ok x h) (exec_ldB_ok x h) rfl
    | ldMemVx x =>
      have h := not_of_ite_none hf
      cases p <;> exact hideNext_eq_of_next (exec_ldMemVx_ok x h) (exec_ldMemVx_ok x h) rfl
    | ldVxMem x =>
      have h := not_of_ite_none hf
      cases p <;> exact hideNext_eq_of_next (exec_ldVxMem_ok x h) (exec_ldVxMem_ok x h) rfl
    | rnd x kk =>
      cases p with
      | status => rfl
      | rnd => exact absurd ⟨rfl, x, kk, rfl⟩ hp
    | _ => cases p <;> rfl

/-- What the end of a step leaves depends on the outcome up to the part only. -/
theorem hideNext_finish (p : Part) {o o' : Outcome} (h : hideNext p o = hideNext p o') :
    hideNext p (finish o) = hideNext p (finish o') := by
  obtain rfl | ⟨u, u', rfl, rfl, hu⟩ := eq_or_next_of_hideNext_eq h
  · rfl
  · refine hideNext_eq_of_next (finish_next u) (finish_next u') ?_
    rw [← State.hide_endStep, hu, State.hide_endStep]

/-- A step does the same whatever a part holds that its instruction does not read, up to the part. -/
theorem step_hide (p : Part) (s : State) (hp : ∀ i, s.fetchInstr = .ok i → ¬ ReadsPart p i) :
    hideNext p (step (s.hide p)) = hideNext p (step s) := by
  cases hf : s.fetchInstr with
  | ok i =>
    rw [step_of_instr hf, step_of_instr ((s.fetchInstr_hide p).trans hf)]
    apply hideNext_finish
    rw [← exec_hide p i s.beginStep (hp i hf), ← exec_hide p i (s.hide p).beginStep (hp i hf), s.hide_beginStep p]
  | error c =>
    refine hideNext_eq_of_next (step_of_fault ((s.fetchInstr_hide p).trans hf)) (step_of_fault hf) ?_
    rw [← State.hide_endStep, ← State.hide_recordFault, s.hide_beginStep p, State.hide_recordFault,
      State.hide_endStep]

/-- Two states that differ in a part only, which the instruction does not read: their steps agree up to the part. -/
theorem step_hide_congr {p : Part} {s s' : State} (h : s'.hide p = s.hide p)
    (hp : ∀ i, s.fetchInstr = .ok i → ¬ ReadsPart p i) : hideNext p (step s') = hideNext p (step s) := by
  have hf : s'.fetchInstr = s.fetchInstr := by rw [← s'.fetchInstr_hide p, h, s.fetchInstr_hide]
  rw [← step_hide p s' (hf ▸ hp), h, step_hide p s hp]

/-! ### What the claims say of the two parts -/

/-- Settles O16: no instruction reads the status, so hiding it makes no difference to a step. -/
theorem statusBitsAndSoundTimerAreNotRead : Obligations.StatusBitsAndSoundTimerAreNotRead := by
  intro s s' t hs ht
  have e : hideNext .status (step s') = hideNext .status (step s) :=
    step_hide_congr (State.hide_status_eq_iff.2 hs) fun _ _ hr => nomatch hr.1
  obtain h | ⟨t', u, ht', hu, h⟩ := eq_or_next_of_hideNext_eq e
  · exact ⟨t, h.trans ht, rfl⟩
  · cases hu.symm.trans ht
    exact ⟨t', ht', State.hide_status_eq_iff.1 h⟩

/-- A step uses up one of the host's bytes (R44). -/
theorem step_rndIn {s t : State} (h : step s = .next t) : t.rndIn = s.rndIn.tail := by
  obtain ⟨u, rfl, ⟨i, -, hu⟩ | ⟨c, -, rfl⟩⟩ := step_next h
  · obtain ⟨-, -, hr, -, -⟩ := exec_frame hu
    rw [State.endStep_rndIn, hr, State.beginStep_rndIn]
  · rfl

/-- A step that runs a Cxkk leaves this STEP's byte in `V[x]`, masked (R44, R153). -/
theorem step_rnd {s : State} {x : Reg} {kk : Byte} (hf : s.fetchInstr = .ok (.rnd x kk)) :
    ∃ t, step s = .next t ∧ t.reg x = s.rnd &&& kk := by
  refine ⟨_, step_of_instr hf, ?_⟩
  rw [State.reg_endStep, State.reg_advance, State.reg_setReg, if_pos rfl]
  rfl

/-- A STEP whose word at PC is no Cxkk does the same with any byte (R44). -/
theorem opStep_congr {s : State} (r r' : Byte) (h : ¬ ∃ x kk, decodeWord s.wordAtPc = .ok (.rnd x kk)) :
    opStep r s = opStep r' s := by
  have e : hideNext .rnd (opStep r s) = hideNext .rnd (opStep r' s) := by
    refine step_hide_congr rfl fun i hi hr => h ?_
    obtain ⟨-, x, kk, rfl⟩ := hr
    exact ⟨x, kk, (State.fetchInstr_ok.1 hi).2⟩
  obtain h | ⟨t, t', ht, ht', htt⟩ := eq_or_next_of_hideNext_eq e
  · exact h
  · rw [ht, ht', State.eq_of_hide_rnd htt ((step_rndIn ht).trans (step_rndIn ht').symm)]

/-- Settles O31: a Cxkk is the one instruction that reads the host's bytes, and every step uses one of them up. -/
theorem stepUsesItsByteInRndOnly : Obligations.StepUsesItsByteInRndOnly :=
  ⟨fun s r _ _ hf hd => step_rnd (s := { s with rndIn := r :: s.rndIn }) (State.fetchInstr_ok.2 ⟨hf, hd⟩),
    fun _ r r' h => opStep_congr r r' h⟩

end Sys2Proof.Machine
end

section
/-! PROOFS. The invariant of R28, R251 and R64, kept by every instruction, step and host operation. -/

namespace Sys2Proof.Machine

/-- The invariant speaks of SP, `fault` and memory only. -/
theorem State.Inv.congr {s t : State} (h : s.Inv) (hsp : t.sp = s.sp) (hf : t.fault = s.fault) (hm : t.mem = s.mem) :
    t.Inv :=
  ⟨hsp ▸ h.spInRange, hf ▸ h.faultIsACode, hm ▸ h.memCanonical⟩

/-- Recording a fault writes a code of R251 or nothing. -/
theorem State.Inv.recordFault {s : State} (h : s.Inv) (c : FaultCode) : (s.recordFault c).Inv where
  spInRange := h.spInRange
  faultIsACode := by
    rw [State.recordFault_fault]
    split
    · cases c <;> decide
    · exact h.faultIsACode
  memCanonical := h.memCanonical

/-- A block write keeps memory in canonical form, so it keeps the invariant. -/
theorem State.Inv.writeBlock {s t : State} (h : s.Inv) (hsp : t.sp = s.sp) (hf : t.fault = s.fault) {a : Nat}
    {bs : List Byte} (hm : t.mem = s.mem.writeBlock a bs) : t.Inv :=
  ⟨hsp ▸ h.spInRange, hf ▸ h.faultIsACode, hm ▸ Memory.wf_writeBlock a bs h.memCanonical⟩

theorem State.Inv.endStep {s : State} (h : s.Inv) : s.endStep.Inv := h.congr (by simp) (by simp) (by simp)

/-- Every instruction keeps the invariant. -/
theorem exec_inv {i : Instr} {s t : State} (h : s.Inv) (ht : exec i s = .next t) : t.Inv := by
  have hsp := h.spInRange
  cases exec_effect ht with
  | fault i c => exact h.recordFault c
  | ret p h0 =>
    refine ⟨?_, h.faultIsACode, h.memCanonical⟩
    show (s.sp - 1).toNat ≤ 16
    bv_omega
  | call nnn stack h1 =>
    refine ⟨?_, h.faultIsACode, h.memCanonical⟩
    show (s.sp + 1).toNat ≤ 16
    bv_omega
  | ldB | ldMemVx => exact h.writeBlock rfl rfl rfl
  | jump | load | flagged | cls | drw | ldI | addI | ldF | ldVxMem | wait | key | ldDTVx | ldSTVx =>
    exact h.congr rfl rfl rfl

/-- Every step keeps the invariant. -/
theorem step_inv {s t : State} (h : s.Inv) (ht : step s = .next t) : t.Inv := by
  have hb : s.beginStep.Inv := h.congr rfl rfl rfl
  obtain ⟨u, rfl, ⟨i, -, hu⟩ | ⟨c, -, rfl⟩⟩ := step_next ht
  · exact (exec_inv hb hu).endStep
  · exact (hb.recordFault c).endStep

/-- Settles O53. -/
theorem everyStepKeepsTheInvariant : Obligations.EveryStepKeepsTheInvariant := fun _ _ => step_inv

/-- Settles O52: SP and `fault` are 0 and memory lists nothing. -/
theorem resetSatisfiesTheInvariant : Obligations.ResetSatisfiesTheInvariant :=
  ⟨Nat.zero_le 16, Nat.zero_le 5, Memory.wf_nil⟩

/-- RESET under any parameters: only memory differs from the reset state in what the invariant speaks of. -/
theorem opReset_inv (s : State) : (opReset s).Inv := resetSatisfiesTheInvariant.writeBlock rfl rfl rfl

theorem opLoad_inv {s : State} (h : s.Inv) (image : List Byte) : (opLoad image s).1.Inv := by
  unfold opLoad
  split
  · exact h
  · exact (opReset_inv s).writeBlock rfl rfl rfl

theorem opTick_inv {s t : State} (h : s.Inv) (ht : opTick s = .next t) : t.Inv := by
  unfold opTick at ht
  split at ht
  · cases ht
    exact h.congr rfl rfl rfl
  · cases ht

theorem withoutReply_eq_next {o : Outcome} {t : State} {reply : HostReply} (h : withoutReply o = .next (t, reply)) :
    o = .next t := by
  cases o with
  | next s => cases h; rfl
  | fault | refused => cases h

/-- Settles O54, operation by operation. -/
theorem everyHostOperationKeepsTheInvariant : Obligations.EveryHostOperationKeepsTheInvariant := by
  intro op s t reply h ht
  cases op with
  | reset => cases ht; exact opReset_inv s
  | load image => cases ht; exact opLoad_inv h image
  | step rnd =>
    have hr : State.Inv { s with rndIn := rnd :: s.rndIn } := h.congr rfl rfl rfl
    exact step_inv hr (withoutReply_eq_next ht)
  | setKeys | clearDirty => cases ht; exact h.congr rfl rfl rfl
  | readDisplay | readStatus => cases ht; exact h
  | tick => exact opTick_inv h (withoutReply_eq_next ht)

end Sys2Proof.Machine
end
section
/-! PROOFS. Who writes which state: the writer lists of 10_state.md, `fault` and `key_wait`. -/

namespace Sys2Proof.Machine

/-! ### Writers (R26 to R37, R63) -/

section
variable {i : Instr} {s t : State} (ht : exec i s = .next t)
include ht

theorem writer_of_I_ne (h : t.I ≠ s.I) :
    (∃ a, i = .ldI a) ∨ ∃ x, i = .addI x ∨ i = .ldF x ∨ i = .ldMemVx x ∨ i = .ldVxMem x := by
  cases exec_effect ht with
  | ldI a => exact .inl ⟨a, rfl⟩
  | addI x => exact .inr ⟨x, .inl rfl⟩
  | ldF x => exact .inr ⟨x, .inr (.inl rfl)⟩
  | ldMemVx x => exact .inr ⟨x, .inr (.inr (.inl rfl))⟩
  | ldVxMem x => exact .inr ⟨x, .inr (.inr (.inr rfl))⟩
  | _ => exact absurd rfl h

theorem writer_of_dt_ne (h : t.dt ≠ s.dt) : ∃ x, i = .ldDTVx x := by
  cases exec_effect ht with
  | ldDTVx x => exact ⟨x, rfl⟩
  | _ => exact absurd rfl h

theorem writer_of_st_ne (h : t.st ≠ s.st) : ∃ x, i = .ldSTVx x := by
  cases exec_effect ht with
  | ldSTVx x => exact ⟨x, rfl⟩
  | _ => exact absurd rfl h

theorem writer_of_sp_ne (h : t.sp ≠ s.sp) : i = .ret ∨ ∃ a, i = .call a := by
  cases exec_effect ht with
  | ret => exact .inl rfl
  | call a => exact .inr ⟨a, rfl⟩
  | _ => exact absurd rfl h

theorem writer_of_stack_ne (h : t.stack ≠ s.stack) : ∃ a, i = .call a := by
  cases exec_effect ht with
  | call a => exact ⟨a, rfl⟩
  | _ => exact absurd rfl h

theorem writer_of_disp_ne (h : t.disp ≠ s.disp) : i = .cls ∨ ∃ x y n, i = .drw x y n := by
  cases exec_effect ht with
  | cls => exact .inl rfl
  | drw x y n => exact .inr ⟨x, y, n, rfl⟩
  | _ => exact absurd rfl h

theorem writer_of_mem_ne (h : t.mem ≠ s.mem) : ∃ x, i = .ldB x ∨ i = .ldMemVx x := by
  cases exec_effect ht with
  | ldB x => exact ⟨x, .inl rfl⟩
  | ldMemVx x => exact ⟨x, .inr rfl⟩
  | _ => exact absurd rfl h

/-- VF is written as a flag, or as the destination the instruction names (R37). -/
theorem writer_of_VF_ne (h : t.reg VF ≠ s.reg VF) :
    (∃ x, FlagsReg i x) ∨ (∃ x y n, i = .drw x y n) ∨ (∃ x, i = .addI x) ∨ LoadsReg i VF ∨ i = .ldVxK VF ∨
      i = .ldVxMem VF := by
  have named {x : Reg} {b : Byte} (h : (s.setReg x b).reg VF ≠ s.reg VF) : x = VF := by
    by_contra hx
    exact h (by rw [State.reg_setReg, if_neg (Ne.symm hx)])
  cases exec_effect ht with
  | flagged _ x f b hx => exact .inl ⟨x, hx⟩
  | drw x y n => exact .inr (.inl ⟨x, y, n, rfl⟩)
  | addI x => exact .inr (.inr (.inl ⟨x, rfl⟩))
  | load _ x b hx => exact .inr (.inr (.inr (.inl (named h ▸ hx))))
  | key x b => exact .inr (.inr (.inr (.inr (.inl (by rw [named h])))))
  | ldVxMem x a =>
    have hx : VF ≤ x := by
      by_contra hx
      exact h ((s.loadRegs_getElem x VF a).trans (if_neg hx))
    rw [le_antisymm (Fin.le_last x) hx]
    exact .inr (.inr (.inr (.inr (.inr rfl))))
  | _ => exact absurd rfl h

/-- `key_wait` is written by Fx0A only, in the meanings. -/
theorem exec_keyWait_of_ne (h : ∀ x, i ≠ .ldVxK x) : t.keyWait = s.keyWait := by
  cases exec_effect ht with
  | wait x => exact absurd rfl (h x)
  | key x => exact absurd rfl (h x)
  | _ => rfl

end

/-- Settles O14. -/
theorem eachStateIsWrittenByItsNamedWriters : Obligations.EachStateIsWrittenByItsNamedWriters := by
  intro i s t ht
  obtain ⟨hk, hc, hr, hd, -⟩ := exec_frame ht
  exact ⟨writer_of_I_ne ht, writer_of_dt_ne ht, writer_of_st_ne ht, writer_of_sp_ne ht, writer_of_stack_ne ht,
    writer_of_disp_ne ht, fun ⟨a, ha⟩ => writer_of_mem_ne ht fun e => ha (by rw [e]), hk, hc, hr, hd⟩

/-- Settles O15. -/
theorem onlyFlagWritersOverwriteVF : Obligations.OnlyFlagWritersOverwriteVF := by
  intro i s t ht h
  simpa only [FlagsReg, LoadsReg, or_assoc] using writer_of_VF_ne ht h

/-! ### `fault` (R39, R251, R252) -/

/-- What a step leaves in `fault`. -/
theorem step_fault {s t : State} (ht : step s = .next t) :
    t.fault = match stepFault s with | some c => s.faultAfter c | none => s.fault := by
  cases hf : stepFault s with
  | some c =>
    cases (step_of_stepFault hf).symm.trans ht
    exact State.endStep_fault _
  | none =>
    obtain ⟨i, u, -, -, hi, hu, rfl⟩ := step_of_no_stepFault hf ht
    obtain ⟨-, -, -, -, hfault⟩ := exec_frame hu
    exact (State.endStep_fault u).trans (hfault ((instrFault_beginStep s i).trans hi))

/-- Settles O10: `fault` after a step is `faultAfter` of the fault raised, which keeps a recorded code. -/
theorem faultRegisterIsWrittenByFaultsOnly : Obligations.FaultRegisterIsWrittenByFaultsOnly := by
  intro s t ht
  rw [step_fault ht]
  cases stepFault s with
  | none => exact ⟨fun _ => rfl, fun _ => rfl, fun h => congrArg BitVec.toNat h⟩
  | some c =>
    refine ⟨nofun, fun h => if_neg h, fun h => ?_⟩
    show (s.faultAfter c).toNat = faultNumber c
    rw [State.faultAfter, if_pos h, FaultCode.toNat_code]

/-! ### `key_wait` (R30, R96) -/

/-- The scan finds no key exactly if none of those it passes is pressed. -/
theorem foldl_scanKey_eq_none_iff (s : State) (l : List Nat) (a : Option Nat) :
    l.foldl (scanKey s) a = none ↔ a = none ∧ ∀ j ∈ l, s.keys.getLsbD j = false := by
  induction l generalizing a with
  | nil => simp
  | cons k l ih =>
    have hk : scanKey s a k = none ↔ a = none ∧ s.keys.getLsbD k = false := by
      unfold scanKey State.key
      cases s.keys.getLsbD k <;> simp
    rw [List.foldl_cons, ih, hk, List.forall_mem_cons, and_assoc]

theorem State.pressedKey_eq_none_iff (s : State) : s.pressedKey = none ↔ ∀ k < 16, s.keys.getLsbD k = false := by
  simp only [State.pressedKey, foldl_scanKey_eq_none_iff, true_and, List.mem_range]

/-- An instruction that starts with `key_wait` cleared leaves it set exactly if it is a waiting Fx0A. -/
theorem exec_keyWait_iff {i : Instr} {s t : State} (ht : exec i s = .next t) (h0 : s.keyWait = false) :
    t.keyWait = true ↔ (∃ x, i = .ldVxK x) ∧ ∀ k < 16, s.keys.getLsbD k = false := by
  rw [← s.pressedKey_eq_none_iff]
  by_cases hi : ∃ x, i = .ldVxK x
  · obtain ⟨x, rfl⟩ := hi
    cases hk : s.pressedKey with
    | none =>
      cases (exec_ldVxK_wait x hk).symm.trans ht
      exact ⟨fun _ => ⟨⟨x, rfl⟩, rfl⟩, fun _ => rfl⟩
    | some k =>
      cases (exec_ldVxK_key x hk).symm.trans ht
      exact ⟨fun h => Bool.noConfusion h, fun h => nomatch h.2⟩
  · rw [exec_keyWait_of_ne ht fun x e => hi ⟨x, e⟩, h0]
    exact ⟨fun h => Bool.noConfusion h, fun h => absurd h.1 hi⟩

/-- Settles O12: a step clears `key_wait` first, and only a waiting Fx0A sets it. -/
theorem keyWaitIsTheWaitingFx0A : Obligations.KeyWaitIsTheWaitingFx0A := by
  refine ⟨fun s t ht => ?_, fun _ _ => rfl⟩
  obtain ⟨u, rfl, ⟨i, hf, hu⟩ | ⟨c, hf, rfl⟩⟩ := step_next ht
  · obtain ⟨hfetch, hd⟩ := State.fetchInstr_ok.1 hf
    rw [State.endStep_keyWait, exec_keyWait_iff hu rfl, hd]
    simp [hfetch]
  · have hno : ¬ (s.fetchable ∧ ∃ x, decodeWord s.wordAtPc = .ok (.ldVxK x)) := by
      rintro ⟨hfetch, x, hd⟩
      rw [State.fetchInstr_ok.2 ⟨hfetch, hd⟩] at hf
      cases hf
    rw [State.endStep_keyWait, State.recordFault_keyWait, State.beginStep_keyWait]
    exact ⟨fun h => Bool.noConfusion h, fun ⟨hfetch, hx, _⟩ => absurd ⟨hfetch, hx⟩ hno⟩

end Sys2Proof.Machine
end
section
/-! PROOFS. Single rules: the keys a host sets before a step, a stack pointer past the stack, where a pixel lies, and the
host's reads and writes. -/

namespace Sys2Proof.Machine

/-- A step that runs an Fx0A with `k` the highest pressed key puts it into `V[x]` and goes on (R197, R198). -/
theorem step_ldVxK_key {s : State} {x : Reg} {k : Nat} (hf : s.fetchInstr = .ok (.ldVxK x))
    (hk : s.pressedKey = some k) (hlt : k < 256) : ∃ u, step s = .next u ∧ (u.reg x).toNat = k ∧ u.pc = s.pc + 2 ∧
      u.keyWait = false ∧ u.keys = s.keys := by
  have hu := exec_ldVxK_key (s := s.beginStep) x hk
  refine ⟨_, (step_of_instr hf).trans (congrArg finish hu), ?_, ?_, ?_, ?_⟩
  · rw [State.reg_endStep, State.reg_advance]
    show ((s.beginStep.setReg x (BitVec.ofNat 8 k)).reg x).toNat = k
    rw [State.reg_setReg, if_pos rfl, BitVec.toNat_ofNat, Nat.mod_eq_of_lt hlt]
  all_goals simp

/-- Settles O51: the scan of the step finds the highest of the keys just set. -/
theorem keysSetBeforeAStepResolveItsWait : Obligations.KeysSetBeforeAStepResolveItsWait := by
  intro s x keys k hfetch hd hk hpressed hhighest rnd
  have hf : State.fetchInstr { opSetKeys keys s with rndIn := rnd :: s.rndIn } = .ok (.ldVxK x) :=
    State.fetchInstr_ok.2 ⟨hfetch, hd⟩
  obtain ⟨u, hu, hrest⟩ := step_ldVxK_key hf (State.pressedKey_eq_some hk hpressed hhighest) (by omega)
  exact ⟨_, u, rfl, congrArg withoutReply hu, hrest⟩

/-- Settles O20: no stack entry of such a number exists. -/
theorem callAndRetStopWhereNoStackEntryExists : Obligations.CallAndRetStopWhereNoStackEntryExists := by
  intro s nnn h
  have ne_of_toNat_le {n : BitVec 5} (hn : n.toNat ≤ 16) : s.sp ≠ n := fun e => by rw [e] at h; omega
  exact ⟨exec_call_stop nnn (ne_of_toNat_le (by decide)) (by omega),
    exec_ret_stop (ne_of_toNat_le (by decide)) (by omega)⟩

/-- Settles O32: the byte and the bit `pixByte` and `pixBit` name. -/
theorem pixelAddressing : Obligations.PixelAddressing := fun d r c =>
  ⟨d[(pixByte r c).val], Vector.getElem?_eq_getElem (pixByte r c).isLt, rfl⟩

/-- Settles O49: each of the four operations is the update or the read its rule names. -/
theorem hostReadsAndWrites : Obligations.HostReadsAndWrites := fun _ _ =>
  ⟨⟨_, rfl, rfl, fun _ _ => rfl⟩, rfl, rfl, rfl⟩

end Sys2Proof.Machine
end

section
/-! PROOFS. Stores and fetches (20_memory.md R69, R70): what an Fx33 or Fx55 stores, the next step fetches. -/

namespace Sys2Proof.Machine

/-- Where the fetch raises no fault it gives the word at PC (R91). -/
theorem State.fetch_of_fetchable {s : State} (h : s.fetchable) : s.fetch = .ok s.wordAtPc := by
  rw [State.fetch_eq, if_neg (s.fetchable_iff.1 h)]

/-- Each byte of memory after a block write is the byte of the block stored there, or what it was before. -/
theorem Memory.read_writeBlock_cases (m : Memory) (a p : Nat) (bs : List Byte) (hlen : bs.length ≤ 4096) :
    (∀ k < bs.length, p % 4096 = (a + k) % 4096 → bs[k]? = some ((m.writeBlock a bs).read (p % 4096))) ∧
      ((∀ k < bs.length, p % 4096 ≠ (a + k) % 4096) → (m.writeBlock a bs).read (p % 4096) = m.read (p % 4096)) := by
  refine ⟨fun k hk hp => ?_, m.read_writeBlock_other a bs _⟩
  rw [hp, List.getElem?_eq_getElem hk]
  exact congrArg some (m.read_writeBlock_at a bs k hk hlen).symm

/-- Register `k` of a stored block reads back from its address (R225). -/
theorem State.read_storedRegBlock (s : State) {x k : Reg} (h : k ≤ x) (a : Nat) :
    (s.mem.writeBlock a (s.regBlock x)).read ((a + k.val) % 4096) = s.reg k := by
  have hk : k.val < (s.regBlock x).length := by
    rw [State.length_regBlock]; exact Nat.lt_succ_of_le (Fin.le_def.1 h)
  exact (s.mem.read_writeBlock_at a _ k.val hk (by rw [State.length_regBlock]; omega)).trans (s.regBlock_getElem x k hk)

/-- The instruction stores these bytes at `I`: the digits of an Fx33 or the registers of an Fx55 (R224, R225). -/
def Stores (s : State) (i : Instr) (bytes : List Byte) : Prop :=
  (∃ x, i = .ldB x ∧ bytes = bcdDigits (s.reg x)) ∨ (∃ x, i = .ldMemVx x ∧ bytes = s.regBlock x)

/-- No instruction stores more than the sixteen registers. -/
theorem Stores.length_le {s : State} {i : Instr} {bytes : List Byte} (h : Stores s i bytes) : bytes.length ≤ 16 := by
  rcases h with ⟨x, -, rfl⟩ | ⟨x, -, rfl⟩
  · rw [length_bcdDigits]; decide
  · rw [State.length_regBlock]; omega

/-- A storing instruction leaves memory with its block written at `I`. -/
theorem Stores.exec_mem {s : State} {i : Instr} {bytes : List Byte} (h : Stores s i bytes)
    (hr : ¬ s.outOfRange s.I.toNat bytes.length) :
    ∃ u, exec i s = .next u ∧ u.mem = s.mem.writeBlock s.I.toNat bytes := by
  rcases h with ⟨x, rfl, rfl⟩ | ⟨x, rfl, rfl⟩
  · exact ⟨_, exec_ldB_ok x hr, rfl⟩
  · exact ⟨_, exec_ldMemVx_ok x (by rwa [State.length_regBlock] at hr), rfl⟩

/-- A step that runs a storing instruction leaves memory with its block written at `I` (R69). -/
theorem Stores.step_mem {s : State} {i : Instr} {bytes : List Byte} (h : Stores s i bytes)
    (hf : s.fetchInstr = .ok i) (hr : ¬ s.outOfRange s.I.toNat bytes.length) :
    ∃ t, step s = .next t ∧ t.mem = s.mem.writeBlock s.I.toNat bytes := by
  obtain ⟨u, hu, hmem⟩ := Stores.exec_mem (s := s.beginStep) h hr
  exact ⟨u.endStep, (step_of_instr hf).trans (congrArg finish hu), u.endStep_mem.trans hmem⟩

/-- Settles O45: the block is in memory when the step ends, and its bytes `k` and `l` lie at the new PC. -/
theorem storeIsSeenByTheNextFetch : Obligations.StoreIsSeenByTheNextFetch := by
  intro s t x k l hpc hk hl hlx hI hIx ht
  have hr : ¬ s.outOfRange s.I.toNat (x.val + 1) := by
    simp only [State.outOfRange, decide_eq_true_iff]; omega
  rw [exec_ldMemVx_ok x hr] at ht
  cases ht
  have hpc2 : (s.pc + 2).toNat = s.I.toNat + k.val := by
    rw [hI, BitVec.toNat_add]; exact Nat.mod_eq_of_lt (by change s.pc.toNat + 2 < 2 ^ 16; omega)
  have hpc3 : (s.pc + 2).toNat + 1 = s.I.toNat + l.val := by omega
  rw [State.fetch_of_fetchable fun _ => by simp only [State.endStep_pc]; omega]
  simp only [State.wordAtPc, State.endStep_pc, State.endStep_mem, hpc3]
  rw [hpc2, s.read_storedRegBlock hk, s.read_storedRegBlock hlx]

/-- Settles O57: both bytes of the fetch are reads of the memory the store leaves. -/
theorem everyStoredByteIsSeenByTheNextFetch : Obligations.EveryStoredByteIsSeenByTheNextFetch := by
  intro s i bytes hfetch hdecode hstores hr
  have hst : Stores s i bytes := hstores
  obtain ⟨t, ht, hmem⟩ := hst.step_mem (State.fetchInstr_ok.2 ⟨hfetch, hdecode⟩) hr
  have hbytes (p : Nat) := s.mem.read_writeBlock_cases s.I.toNat p bytes (hst.length_le.trans (by decide))
  rw [← hmem] at hbytes
  refine ⟨t, ht, fun htf => ⟨_, _, State.fetch_of_fetchable htf, fun j b hj => ?_⟩⟩
  rcases hj with ⟨rfl, rfl⟩ | ⟨rfl, rfl⟩
  · exact hbytes (t.pc.toNat + 0)
  · exact hbytes (t.pc.toNat + 1)

end Sys2Proof.Machine
end

section
/-! PROOFS. The encoding (30_encoding.md): the decoder, the encoder and the opcode table of R84 are one relation between
words and instructions. The two halves that carry it: a word of a row decodes to the row's instruction, and a word that
decodes is the encoding of its instruction. -/

namespace Sys2Proof.Machine

/-! ### A word of a row decodes to the row's instruction (R84, R92) -/

/-- A row whose mask fixes the whole word. -/
theorem decodesTo_word {p : Word} {i : Instr} (h : decodeWord p = .ok i) : DecodesTo p 0xFFFF fun _ => i := by
  intro w hw
  have hall : w &&& 0xFFFF = w := BitVec.and_allOnes
  rw [← hall, hw, h]

/-- A row of family 0x8, which `n` refines (R85). -/
theorem decodesTo_family8 {n : BitVec 4} {f : Word → Instr} (h : ∀ w, fieldN w = n → decodeFamily8 w = .ok (f w)) :
    DecodesTo (wordXYN 0x8#4 0 0 n) 0xF00F f :=
  decodesTo_family_n fun w ho hn => by rw [decodeWord, ho]; exact h w hn

/-- A row of family 0xE, which `kk` refines (R85). -/
theorem decodesTo_familyE {kk : Byte} {f : Word → Instr} (h : ∀ w, fieldKK w = kk → decodeFamilyE w = .ok (f w)) :
    DecodesTo (wordXK 0xE#4 0 kk) 0xF0FF f :=
  decodesTo_family_kk fun w ho hk => by rw [decodeWord, ho]; exact h w hk

/-- A row of family 0xF, which `kk` refines (R85). -/
theorem decodesTo_familyF {kk : Byte} {f : Word → Instr} (h : ∀ w, fieldKK w = kk → decodeFamilyF w = .ok (f w)) :
    DecodesTo (wordXK 0xF#4 0 kk) 0xF0FF f :=
  decodesTo_family_kk fun w ho hk => by rw [decodeWord, ho]; exact h w hk

theorem opcodeRowsLow_decodesTo : ∀ r ∈ opcodeRowsLow, DecodesTo r.pattern r.mask r.operands := by
  simp only [opcodeRowsLow, List.forall_mem_cons]
  refine ⟨decodesTo_word rfl, decodesTo_word rfl, ?_, ?_, ?_, ?_, ?_, ?_, ?_, nofun⟩
  · exact decodesTo_family (op := 0x1#4) fun w ho => by simp only [decodeWord, ho]
  · exact decodesTo_family (op := 0x2#4) fun w ho => by simp only [decodeWord, ho]
  · exact decodesTo_family (op := 0x3#4) fun w ho => by simp only [decodeWord, ho]
  · exact decodesTo_family (op := 0x4#4) fun w ho => by simp only [decodeWord, ho]
  · exact decodesTo_family_n (op := 0x5#4) (n := 0x0#4) fun w ho hn => by simp only [decodeWord, ho, if_pos hn]
  · exact decodesTo_family (op := 0x6#4) fun w ho => by simp only [decodeWord, ho]
  · exact decodesTo_family (op := 0x7#4) fun w ho => by simp only [decodeWord, ho]

theorem opcodeRowsAlu_decodesTo : ∀ r ∈ opcodeRowsAlu, DecodesTo r.pattern r.mask r.operands := by
  simp only [opcodeRowsAlu, List.forall_mem_cons]
  refine ⟨?_, ?_, ?_, ?_, ?_, ?_, ?_, ?_, ?_, nofun⟩
  · exact decodesTo_family8 (n := 0x0#4) fun w hn => by simp only [decodeFamily8, hn]
  · exact decodesTo_family8 (n := 0x1#4) fun w hn => by simp only [decodeFamily8, hn]
  · exact decodesTo_family8 (n := 0x2#4) fun w hn => by simp only [decodeFamily8, hn]
  · exact decodesTo_family8 (n := 0x3#4) fun w hn => by simp only [decodeFamily8, hn]
  · exact decodesTo_family8 (n := 0x4#4) fun w hn => by simp only [decodeFamily8, hn]
  · exact decodesTo_family8 (n := 0x5#4) fun w hn => by simp only [decodeFamily8, hn]
  · exact decodesTo_family8 (n := 0x6#4) fun w hn => by simp only [decodeFamily8, hn]
  · exact decodesTo_family8 (n := 0x7#4) fun w hn => by simp only [decodeFamily8, hn]
  · exact decodesTo_family8 (n := 0xE#4) fun w hn => by simp only [decodeFamily8, hn]

theorem opcodeRowsHigh_decodesTo : ∀ r ∈ opcodeRowsHigh, DecodesTo r.pattern r.mask r.operands := by
  simp only [opcodeRowsHigh, List.forall_mem_cons]
  refine ⟨?_, ?_, ?_, ?_, ?_, ?_, ?_, nofun⟩
  · exact decodesTo_family_n (op := 0x9#4) (n := 0x0#4) fun w ho hn => by simp only [decodeWord, ho, if_pos hn]
  · exact decodesTo_family (op := 0xA#4) fun w ho => by simp only [decodeWord, ho]
  · exact decodesTo_family (op := 0xB#4) fun w ho => by simp only [decodeWord, ho]
  · exact decodesTo_family (op := 0xC#4) fun w ho => by simp only [decodeWord, ho]
  · exact decodesTo_family (op := 0xD#4) fun w ho => by simp only [decodeWord, ho]
  · exact decodesTo_familyE (kk := 0x9E#8) fun w hk => by simp only [decodeFamilyE, hk]
  · exact decodesTo_familyE (kk := 0xA1#8) fun w hk => by simp only [decodeFamilyE, hk]

theorem opcodeRowsF_decodesTo : ∀ r ∈ opcodeRowsF, DecodesTo r.pattern r.mask r.operands := by
  simp only [opcodeRowsF, List.forall_mem_cons]
  refine ⟨?_, ?_, ?_, ?_, ?_, ?_, ?_, ?_, ?_, nofun⟩
  · exact decodesTo_familyF (kk := 0x07#8) fun w hk => by simp only [decodeFamilyF, hk]
  · exact decodesTo_familyF (kk := 0x0A#8) fun w hk => by simp only [decodeFamilyF, hk]
  · exact decodesTo_familyF (kk := 0x15#8) fun w hk => by simp only [decodeFamilyF, hk]
  · exact decodesTo_familyF (kk := 0x18#8) fun w hk => by simp only [decodeFamilyF, hk]
  · exact decodesTo_familyF (kk := 0x1E#8) fun w hk => by simp only [decodeFamilyF, hk]
  · exact decodesTo_familyF (kk := 0x29#8) fun w hk => by simp only [decodeFamilyF, hk]
  · exact decodesTo_familyF (kk := 0x33#8) fun w hk => by simp only [decodeFamilyF, hk]
  · exact decodesTo_familyF (kk := 0x55#8) fun w hk => by simp only [decodeFamilyF, hk]
  · exact decodesTo_familyF (kk := 0x65#8) fun w hk => by simp only [decodeFamilyF, hk]

/-- Every row of R84 is a row of the decoder. -/
theorem opcodeTable_decodesTo {r : Row} (h : r ∈ opcodeTable) : DecodesTo r.pattern r.mask r.operands := by
  simp only [opcodeTable, List.mem_append] at h
  obtain ((h | h) | h) | h := h
  · exact opcodeRowsLow_decodesTo r h
  · exact opcodeRowsAlu_decodesTo r h
  · exact opcodeRowsHigh_decodesTo r h
  · exact opcodeRowsF_decodesTo r h

/-- A word in a row of the table, with these operands, decodes to them. -/
theorem decodeWord_of_inRow {k : Nat} {w : Word} {i : Instr} (h : InRow k w i) : decodeWord w = .ok i := by
  obtain ⟨r, hr, hmatch, rfl⟩ := h
  exact opcodeTable_decodesTo (List.mem_of_getElem? hr) w (beq_iff_eq.1 hmatch)

/-! ### Decode of encode (R80, R81, R84) -/

/-- The per-instruction facts of Laws/PerInstr.lean together. -/
theorem exists_inRow_encode : ∀ i : Instr, Laws.EncodesTableRow.Statement i
  | .cls => Laws.EncodesTableRow.cls
  | .ret => Laws.EncodesTableRow.ret
  | .jp nnn => Laws.EncodesTableRow.jp nnn
  | .call nnn => Laws.EncodesTableRow.call nnn
  | .seImm x kk => Laws.EncodesTableRow.seImm x kk
  | .sneImm x kk => Laws.EncodesTableRow.sneImm x kk
  | .seReg x y => Laws.EncodesTableRow.seReg x y
  | .ldImm x kk => Laws.EncodesTableRow.ldImm x kk
  | .addImm x kk => Laws.EncodesTableRow.addImm x kk
  | .ldReg x y => Laws.EncodesTableRow.ldReg x y
  | .orReg x y => Laws.EncodesTableRow.orReg x y
  | .andReg x y => Laws.EncodesTableRow.andReg x y
  | .xorReg x y => Laws.EncodesTableRow.xorReg x y
  | .addReg x y => Laws.EncodesTableRow.addReg x y
  | .sub x y => Laws.EncodesTableRow.sub x y
  | .shr x y => Laws.EncodesTableRow.shr x y
  | .subn x y => Laws.EncodesTableRow.subn x y
  | .shl x y => Laws.EncodesTableRow.shl x y
  | .sneReg x y => Laws.EncodesTableRow.sneReg x y
  | .ldI nnn => Laws.EncodesTableRow.ldI nnn
  | .jpV0 nnn => Laws.EncodesTableRow.jpV0 nnn
  | .rnd x kk => Laws.EncodesTableRow.rnd x kk
  | .drw x y n => Laws.EncodesTableRow.drw x y n
  | .skp x => Laws.EncodesTableRow.skp x
  | .sknp x => Laws.EncodesTableRow.sknp x
  | .ldVxDT x => Laws.EncodesTableRow.ldVxDT x
  | .ldVxK x => Laws.EncodesTableRow.ldVxK x
  | .ldDTVx x => Laws.EncodesTableRow.ldDTVx x
  | .ldSTVx x => Laws.EncodesTableRow.ldSTVx x
  | .addI x => Laws.EncodesTableRow.addI x
  | .ldF x => Laws.EncodesTableRow.ldF x
  | .ldB x => Laws.EncodesTableRow.ldB x
  | .ldMemVx x => Laws.EncodesTableRow.ldMemVx x
  | .ldVxMem x => Laws.EncodesTableRow.ldVxMem x

/-- Settles O1: the encoding lies in a row of the table, whose operands are the instruction's. -/
theorem decodeOfEncodeIsTheInstruction : Obligations.DecodeOfEncodeIsTheInstruction := by
  intro i hi
  obtain ⟨k, hrow⟩ := exists_inRow_encode i hi
  have hword : decodeWord (encode i) = .ok i := decodeWord_of_inRow hrow
  have hbytes : (encode i).extractLsb' 8 8 ++ (encode i).extractLsb' 0 8 = encode i :=
    BitVec.extractLsb'_append_extractLsb'
  exact ⟨by simp only [encodeBytes, decode, hbytes, hword], hword⟩

/-! ### Encode of decode (R81, R92) -/

section
variable {w : Word} {op : BitVec 4} (ho : fieldOp w = op)
include ho

theorem wordA_of_fieldOp : wordA op (fieldNNN w) = w := by rw [← ho, wordA_fields]

theorem wordXK_of_fieldOp : wordXK op (fieldX w) (fieldKK w) = w := by rw [← ho, wordXK_fields]

theorem wordXYN_of_fieldOp : wordXYN op (fieldX w) (fieldY w) (fieldN w) = w := by rw [← ho, wordXYN_fields]

end

/-- The sixteen values of a nibble, which the dispatch on one runs through (R85). -/
theorem nibble_mem : ∀ n : BitVec 4, n ∈ [0x0#4, 0x1#4, 0x2#4, 0x3#4, 0x4#4, 0x5#4, 0x6#4, 0x7#4, 0x8#4, 0x9#4, 0xA#4,
    0xB#4, 0xC#4, 0xD#4, 0xE#4, 0xF#4] := by decide

theorem encode_of_decodeFamily0 {w : Word} {i : Instr} (ho : fieldOp w = 0x0#4) (h : decodeFamily0 w = .ok i) :
    WellFormed i = true ∧ encode i = w := by
  rw [← wordA_of_fieldOp ho]
  unfold decodeFamily0 at h
  split at h <;> cases h
  all_goals next hn => exact ⟨rfl, by rw [hn]; rfl⟩

theorem encode_of_decodeFamily8 {w : Word} {i : Instr} (ho : fieldOp w = 0x8#4) (h : decodeFamily8 w = .ok i) :
    WellFormed i = true ∧ encode i = w := by
  rw [← wordXYN_of_fieldOp ho]
  unfold decodeFamily8 at h
  split at h <;> cases h
  all_goals next hn => exact ⟨rfl, by rw [hn]; rfl⟩

theorem encode_of_decodeFamilyE {w : Word} {i : Instr} (ho : fieldOp w = 0xE#4) (h : decodeFamilyE w = .ok i) :
    WellFormed i = true ∧ encode i = w := by
  rw [← wordXK_of_fieldOp ho]
  unfold decodeFamilyE at h
  split at h <;> cases h
  all_goals next hk => exact ⟨rfl, by rw [hk]; rfl⟩

theorem encode_of_decodeFamilyF {w : Word} {i : Instr} (ho : fieldOp w = 0xF#4) (h : decodeFamilyF w = .ok i) :
    WellFormed i = true ∧ encode i = w := by
  rw [← wordXK_of_fieldOp ho]
  unfold decodeFamilyF at h
  split at h <;> cases h
  all_goals next hk => exact ⟨rfl, by rw [hk]; rfl⟩

/-- Settles O2, family by family: case `h_k` of a split on `op` is family `k - 1`. -/
theorem encodeOfDecodeIsTheWord : Obligations.EncodeOfDecodeIsTheWord := by
  intro w i h
  unfold decodeWord at h
  split at h
  case h_1 ho => exact encode_of_decodeFamily0 ho h
  case h_2 ho | h_3 ho | h_11 ho | h_12 ho =>
    cases h
    exact ⟨rfl, wordA_of_fieldOp ho⟩
  case h_4 ho | h_5 ho | h_7 ho | h_8 ho | h_13 ho =>
    cases h
    exact ⟨rfl, wordXK_of_fieldOp ho⟩
  case h_6 ho | h_10 ho =>
    split at h <;> cases h
    next hn => exact ⟨rfl, by rw [encode, ← hn, wordXYN_of_fieldOp ho]⟩
  case h_9 ho => exact encode_of_decodeFamily8 ho h
  case h_14 ho =>
    cases h
    have hn : (fieldN w).toNat ≤ 15 := Nat.le_of_lt_succ (fieldN w).isLt
    exact ⟨decide_eq_true hn, by rw [encode, BitVec.ofNat_toNat, BitVec.setWidth_eq, wordXYN_of_fieldOp ho]⟩
  case h_15 ho => exact encode_of_decodeFamilyE ho h
  case h_16 =>
    have ho : fieldOp w = 0xF#4 := by have hmem := nibble_mem (fieldOp w); simp_all
    exact encode_of_decodeFamilyF ho h

/-! ### The decoder is the table (R84, R92) -/

/-- The decoder rejects a word for one reason only (R88). -/
theorem decodeWord_error {w : Word} {e : Reject} (h : decodeWord w = .error e) : e = .invalidOpcode := by
  cases e with
  | invalidOpcode => rfl
  | truncated =>
    unfold decodeWord decodeFamily0 decodeFamily8 decodeFamilyE decodeFamilyF at h
    repeat' split at h
    all_goals cases h

/-- A word that decodes lies in a row of the table. -/
theorem exists_row_of_decodeWord {w : Word} {i : Instr} (h : decodeWord w = .ok i) :
    ∃ r ∈ opcodeTable, w &&& r.mask = r.pattern := by
  obtain ⟨hi, rfl⟩ := encodeOfDecodeIsTheWord w i h
  obtain ⟨k, r, hr, hmatch, -⟩ := exists_inRow_encode i hi
  exact ⟨r, List.mem_of_getElem? hr, beq_iff_eq.1 hmatch⟩

/-- Settles O3: the row found decodes the word, and a word that decodes has a row. -/
theorem decoderIsTheOpcodeTable : Obligations.DecoderIsTheOpcodeTable := by
  intro w
  cases hfind : opcodeTable.find? (fun r => w &&& r.mask == r.pattern) with
  | some r =>
    have hmatch : (w &&& r.mask == r.pattern) = true :=
      List.find?_some (p := fun r : Row => w &&& r.mask == r.pattern) hfind
    exact opcodeTable_decodesTo (List.mem_of_find?_eq_some hfind) w (beq_iff_eq.1 hmatch)
  | none =>
    cases hd : decodeWord w with
    | ok i =>
      obtain ⟨r, hr, hmatch⟩ := exists_row_of_decodeWord hd
      exact absurd (beq_iff_eq.2 hmatch) (List.find?_eq_none.1 hfind r hr)
    | error e => rw [decodeWord_error hd]

/-- Two rows with a bit that both masks fix and the patterns set differently have no word in common. -/
theorem not_matches_both {r q : Row} (h : r.pattern &&& q.mask ≠ q.pattern &&& r.mask) (w : Word) :
    ¬ (w &&& r.mask = r.pattern ∧ w &&& q.mask = q.pattern) := by
  rintro ⟨hr, hq⟩
  rw [← hr, ← hq, BitVec.and_assoc, BitVec.and_assoc, BitVec.and_comm r.mask] at h
  exact h rfl

/-- Any two rows fix some bit differently. -/
theorem opcodeTable_pairwise_ne :
    opcodeTable.Pairwise fun r q => r.pattern &&& q.mask ≠ q.pattern &&& r.mask := by decide

/-- Settles O4. -/
theorem opcodeRowsArePairwiseDisjoint : Obligations.OpcodeRowsArePairwiseDisjoint :=
  ⟨rfl, opcodeTable_pairwise_ne.imp fun h w => not_matches_both h w⟩

/-! ### The invalid words (R87, R88) -/

theorem decodeFamily0_invalid_iff {w : Word} (ho : fieldOp w = 0x0#4) :
    decodeFamily0 w = .error .invalidOpcode ↔ w ≠ 0x00E0 ∧ w ≠ 0x00EE := by
  have hw (a : Addr) : w = wordA 0x0#4 a ↔ fieldNNN w = a :=
    ⟨fun e => by rw [e, fieldNNN_wordA], fun e => by rw [← e, wordA_of_fieldOp ho]⟩
  rw [show (0x00E0 : Word) = wordA 0x0#4 0x0E0#12 from rfl, show (0x00EE : Word) = wordA 0x0#4 0x0EE#12 from rfl,
    Ne, Ne, hw, hw]
  unfold decodeFamily0
  split <;> simp_all

theorem decodeFamily8_invalid_iff (w : Word) : decodeFamily8 w = .error .invalidOpcode ↔
    fieldN w ∈ [0x8#4, 0x9#4, 0xA#4, 0xB#4, 0xC#4, 0xD#4, 0xF#4] := by
  unfold decodeFamily8
  split
  case h_10 =>
    have hmem := nibble_mem (fieldN w)
    simp_all
  all_goals next hn => simp [hn]

theorem decodeFamilyE_invalid_iff (w : Word) :
    decodeFamilyE w = .error .invalidOpcode ↔ fieldKK w ∉ [0x9E#8, 0xA1#8] := by
  unfold decodeFamilyE
  split <;> simp_all

theorem decodeFamilyF_invalid_iff (w : Word) : decodeFamilyF w = .error .invalidOpcode ↔
    fieldKK w ∉ [0x07#8, 0x0A#8, 0x15#8, 0x18#8, 0x1E#8, 0x29#8, 0x33#8, 0x55#8, 0x65#8] := by
  unfold decodeFamilyF
  split <;> simp_all

/-- Settles O5, family by family, as O2; the families left to the end hold no invalid word. -/
theorem invalidWordsAreThoseListed : Obligations.InvalidWordsAreThoseListed := by
  intro w
  unfold decodeWord
  split
  case h_1 ho => simp [decodeFamily0_invalid_iff ho, ho]
  case h_6 ho | h_10 ho => by_cases hn : fieldN w = 0#4 <;> simp [ho, hn]
  case h_9 ho => simp [decodeFamily8_invalid_iff, ho]
  case h_15 ho => simp [decodeFamilyE_invalid_iff, ho]
  case h_16 =>
    have ho : fieldOp w = 0xF#4 := by have hmem := nibble_mem (fieldOp w); simp_all
    simp [decodeFamilyF_invalid_iff, ho]
  all_goals next ho => simp [ho]

/-- Settles O6: each word evaluates. -/
theorem wordsWrittenFromTheTableDecode : Obligations.WordsWrittenFromTheTableDecode :=
  ⟨rfl, rfl, rfl, rfl, rfl, rfl, rfl, rfl, rfl, rfl⟩

end Sys2Proof.Machine
end

section
/-! PROOFS. The step of R90 to R97: the instruction it runs, and what it never writes. -/

namespace Sys2Proof.Machine

theorem finish_eq (o : Outcome) :
    finish o = match o with | .next t => .next t.endStep | .fault r => .fault r | .refused r => .refused r := by
  cases o <;> rfl

/-- Settles O7: `beginStep` clears `key_wait`, and `finish` is the end of the step. -/
theorem stepRunsTheDecodedInstruction : Obligations.StepRunsTheDecodedInstruction := fun _ _ hfetch hd =>
  (step_of_instr (State.fetchInstr_ok.2 ⟨hfetch, hd⟩)).trans (finish_eq _)

/-- Only 00E0 and Dxyn write `dirty` (R29). -/
theorem exec_dirty_of_ne {i : Instr} {s t : State} (ht : exec i s = .next t)
    (hi : ¬ (i = .cls ∨ ∃ x y n, i = .drw x y n)) : t.dirty = s.dirty := by
  cases exec_effect ht with
  | cls => exact absurd (.inl rfl) hi
  | drw x y n => exact absurd (.inr ⟨x, y, n, rfl⟩) hi
  | _ => rfl

/-- An instruction that raises no fault leaves `dirty` set exactly if it was, or if it is 00E0 or Dxyn (R29, R171,
R174). -/
theorem exec_dirty_iff {i : Instr} {s t : State} (hf : instrFault s i = none) (ht : exec i s = .next t) :
    t.dirty = true ↔ s.dirty = true ∨ i = .cls ∨ ∃ x y n, i = .drw x y n := by
  by_cases hi : i = .cls ∨ ∃ x y n, i = .drw x y n
  · have hset : t.dirty = true := by
      obtain rfl | ⟨x, y, n, rfl⟩ := hi
      · cases ht; rfl
      · cases (exec_drw_ok x y n (not_of_ite_none hf)).symm.trans ht; rfl
    exact ⟨fun _ => .inr hi, fun _ => hset⟩
  · rw [exec_dirty_of_ne ht hi]
    exact (or_iff_left hi).symm

theorem step_keys_cfg {s t : State} (ht : step s = .next t) : t.keys = s.keys ∧ t.cfg = s.cfg := by
  obtain ⟨u, rfl, ⟨i, -, hu⟩ | ⟨c, -, rfl⟩⟩ := step_next ht
  · obtain ⟨hk, hc, -⟩ := exec_frame hu
    exact ⟨u.endStep_keys.trans hk, u.endStep_cfg.trans hc⟩
  · simp

/-- A step sets `dirty` if its instruction completes and is 00E0 or Dxyn, and else leaves it (R29, R97). -/
theorem step_dirty_iff {s t : State} (ht : step s = .next t) : t.dirty = true ↔ s.dirty = true ∨
    (stepFault s = none ∧
      (decodeWord s.wordAtPc = .ok .cls ∨ ∃ x y n, decodeWord s.wordAtPc = .ok (.drw x y n))) := by
  cases hf : stepFault s with
  | some c =>
    cases (step_of_stepFault hf).symm.trans ht
    simp
  | none =>
    obtain ⟨i, u, -, hd, hi, hu, rfl⟩ := step_of_no_stepFault hf ht
    rw [State.endStep_dirty, exec_dirty_iff ((instrFault_beginStep s i).trans hi) hu, hd]
    simp

/-- Settles O13. -/
theorem stepNeverWritesKeysNorClearsDirty : Obligations.StepNeverWritesKeysNorClearsDirty := by
  intro s t ht
  obtain ⟨hkeys, hcfg⟩ := step_keys_cfg ht
  exact ⟨hkeys, hcfg, step_dirty_iff ht⟩

end Sys2Proof.Machine
end

section
/-! PROOFS. Control flow (40_control_flow.md): jumps, skips, CALL and RET. -/

namespace Sys2Proof.Machine

/-- Row `k` of the table, with its operands, is a row of the decoder (R84). -/
theorem decodesTo_of_getElem? (k : Nat) {p m : Word} {f : Word → Instr} (h : opcodeTable[k]? = some ⟨p, m, f⟩) :
    DecodesTo p m f :=
  opcodeTable_decodesTo (List.mem_of_getElem? h)

/-! ### Jumps -/

@[simp] theorem toNat_zextAddr (nnn : Addr) : (zextAddr nnn).toNat = nnn.toNat :=
  BitVec.toNat_setWidth_of_le (by decide)

@[simp] theorem toNat_zextByte (b : Byte) : (zextByte b).toNat = b.toNat :=
  BitVec.toNat_setWidth_of_le (by decide)

/-- The target of a Bnnn does not wrap: it is at most 0x10FE (R118). -/
theorem toNat_zextAddr_add_zextByte (nnn : Addr) (b : Byte) :
    (zextAddr nnn + zextByte b).toNat = nnn.toNat + b.toNat := by
  have ha := nnn.isLt
  have hb := b.isLt
  rw [BitVec.toNat_add_of_lt (by simp only [toNat_zextAddr, toNat_zextByte]; omega), toNat_zextAddr, toNat_zextByte]

/-- Settles O21: the targets as numbers. -/
theorem jumpsSetPcOnly : Obligations.JumpsSetPcOnly :=
  ⟨decodesTo_of_getElem? 2 rfl, decodesTo_of_getElem? 20 rfl, fun s nnn =>
    ⟨⟨_, rfl, rfl, toNat_zextAddr nnn⟩, ⟨_, rfl, rfl, toNat_zextAddr_add_zextByte nnn (s.reg 0)⟩⟩⟩

/-! ### Skips -/

/-- A skip on a test of the model, in terms of the condition it tests (R15). -/
theorem State.skipIf_of_iff (s : State) {c : Bool} {p : Prop} [Decidable p] (h : c = true ↔ p) :
    s.skipIf c = { s with pc := s.pc + (if p then 4 else 2) } := by
  by_cases hp : p
  · rw [h.2 hp, if_pos hp]; rfl
  · rw [Bool.eq_false_iff.2 (mt h.1 hp), if_neg hp]; rfl

/-- Settles O22: both are skips on a comparison with the byte. -/
theorem immediateSkips : Obligations.ImmediateSkips :=
  ⟨decodesTo_of_getElem? 4 rfl, decodesTo_of_getElem? 5 rfl, fun s _ _ =>
    ⟨congrArg Host.Outcome.next (s.skipIf_of_iff beq_iff_eq), congrArg Host.Outcome.next (s.skipIf_of_iff bne_iff_ne)⟩⟩

/-- Settles O23: both are skips on a comparison of two registers. -/
theorem registerSkips : Obligations.RegisterSkips :=
  ⟨decodesTo_of_getElem? 6 rfl, decodesTo_of_getElem? 18 rfl, fun s _ _ =>
    ⟨congrArg Host.Outcome.next (s.skipIf_of_iff beq_iff_eq), congrArg Host.Outcome.next (s.skipIf_of_iff bne_iff_ne)⟩⟩

/-! ### The stack -/

/-- A RET with SP one above `q` leaves SP at `q` and pops entry `q`, whose address it goes two past (R111). -/
theorem exec_ret_of_top {s : State} {q : BitVec 5} {e : Word} (hsp : s.sp.toNat = q.toNat + 1)
    (he : s.stack[q.toNat]? = some e) : exec .ret s = .next { s with sp := q, pc := e + 2 } := by
  obtain ⟨hq, rfl⟩ := Vector.getElem?_eq_some_iff.1 he
  have hne : s.sp ≠ 0 := sp_ne_zero_of_ret (if_neg (by omega))
  have hpop : s.sp - 1 = q := by bv_omega
  have hidx : s.sp.toNat - 1 = q.toNat := by omega
  rw [exec_ret_pop hne (by omega)]
  simp only [hpop, hidx]

/-- Settles O17: at SP = 0 by the fault table, above it by the entry on top. -/
theorem retPopsAndSkipsTheCall : Obligations.RetPopsAndSkipsTheCall := by
  refine ⟨decodesTo_of_getElem? 1 rfl, fun s => ⟨fun h0 => exec_fault (if_pos h0), fun h1 h16 => ?_⟩⟩
  have hq : (s.sp - 1).toNat = s.sp.toNat - 1 := BitVec.toNat_sub_of_le (BitVec.le_def.2 h1)
  have he : s.stack[s.sp.toNat - 1]? = some s.stack[s.sp.toNat - 1] := Vector.getElem?_eq_getElem (by omega)
  exact ⟨_, _, exec_ret_of_top (q := s.sp - 1) (by omega) (by rw [hq, he]), he, rfl, hq⟩

/-- Settles O18: at SP = 16 by the fault table, below it by the push. -/
theorem callPushesItsOwnAddress : Obligations.CallPushesItsOwnAddress := by
  refine ⟨decodesTo_of_getElem? 3 rfl, fun s nnn => ⟨fun h16 => exec_fault (if_pos h16), fun h => ?_⟩⟩
  have hne : s.sp ≠ 16 := sp_ne_full_of_call (nnn := nnn) (if_neg (by omega))
  have hcount : (s.sp + 1).toNat = s.sp.toNat + 1 := by bv_omega
  exact ⟨_, exec_call_push nnn hne h, rfl, toNat_zextAddr nnn, hcount, Vector.getElem?_set_self h,
    fun j _ hj => Vector.getElem?_set_ne h hj.symm⟩

/-- Settles O19: the call leaves its own address on top of the stack, at the entry the return pops. -/
theorem callThenRetReturnsAfterTheCall : Obligations.CallThenRetReturnsAfterTheCall := by
  intro s nnn p h
  obtain ⟨t, ht, hframe, -, hsp, htop, -⟩ := (callPushesItsOwnAddress.2 s nnn).2 h
  refine ⟨t, ht, ?_⟩
  rw [exec_ret_of_top (s := { t with pc := p }) hsp htop, hframe]

end Sys2Proof.Machine
end

section
/-! PROOFS. Register loads and the ALU (41_alu.md): what an instruction that writes `V[x]` leaves, without a flag and with
one; the flags and results as numbers; and the values where VF is itself an operand. -/

namespace Sys2Proof.Machine

/-! ### Without a flag -/

/-- `V[x]` after a meaning that writes it and goes on. -/
theorem State.reg_setReg_advance (s : State) (x : Reg) (b : Byte) : (s.setReg x b).advance.reg x = b := by
  rw [State.reg_advance, State.reg_setReg, if_pos rfl]

/-- What an instruction that writes `b` to `V[x]` and goes on leaves: its frame, its PC, and of `V[x]` whatever holds of
`b`. -/
theorem exec_load {i : Instr} {s : State} {x : Reg} {b : Byte} (P : Byte → Prop)
    (h : exec i s = .next (s.setReg x b).advance) (hb : P b) :
    ∃ t, exec i s = .next t ∧ OnlyRegs s t [x] ∧ t.pc = s.pc + 2 ∧ P (t.reg x) :=
  ⟨_, h, onlyRegs_setReg s x b, rfl, (s.reg_setReg_advance x b).symm ▸ hb⟩

/-- Settles O24: each is a load, of the byte, of the sum and of `V[y]`. -/
theorem loadsAndImmediateAdd : Obligations.LoadsAndImmediateAdd :=
  ⟨decodesTo_of_getElem? 7 rfl, decodesTo_of_getElem? 8 rfl, decodesTo_of_getElem? 9 rfl, fun s x y kk =>
    ⟨exec_load (· = kk) rfl rfl,
      exec_load (·.toNat = ((s.reg x).toNat + kk.toNat) % 256) rfl (BitVec.toNat_add _ _),
      exec_load (· = s.reg y) rfl rfl⟩⟩

/-- Settles O25: each is a load of a bitwise result. -/
theorem logicIsBitwiseWithoutFlags : Obligations.LogicIsBitwiseWithoutFlags :=
  ⟨decodesTo_of_getElem? 10 rfl, decodesTo_of_getElem? 11 rfl, decodesTo_of_getElem? 12 rfl, fun s x y =>
    ⟨exec_load (fun v => ∀ b, v.getLsbD b = ((s.reg x).getLsbD b || (s.reg y).getLsbD b)) rfl
        fun _ => BitVec.getLsbD_or,
      exec_load (fun v => ∀ b, v.getLsbD b = ((s.reg x).getLsbD b && (s.reg y).getLsbD b)) rfl
        fun _ => BitVec.getLsbD_and,
      exec_load (fun v => ∀ b, v.getLsbD b = ((s.reg x).getLsbD b != (s.reg y).getLsbD b)) rfl
        fun _ => BitVec.getLsbD_xor⟩⟩

/-- A byte the host has listed for the step is the step's byte (R44). -/
theorem State.rnd_of_rndIn {s : State} {q : Byte} {qs : List Byte} (h : s.rndIn = q :: qs) : s.rnd = q := by
  rw [State.rnd, h]

/-- Settles O30: a load of the step's byte, masked. -/
theorem rndMasksTheStepsByte : Obligations.RndMasksTheStepsByte := by
  refine ⟨decodesTo_of_getElem? 21 rfl, fun s x kk => ?_⟩
  obtain ⟨t, ht, hregs, hpc, hbits⟩ :=
    exec_load (i := .rnd x kk) (fun v => ∀ b, v.getLsbD b = (s.rnd.getLsbD b && kk.getLsbD b)) rfl
      fun _ => BitVec.getLsbD_and
  exact ⟨s.rnd, t, ht, hregs, hpc, hbits, fun q qs => State.rnd_of_rndIn⟩

/-! ### The flags and the shifts as numbers -/

@[simp] theorem toNat_carryFlag (a b : Byte) : (carryFlag a b).toNat = if a.toNat + b.toNat > 255 then 1 else 0 := by
  simp [carryFlag]

@[simp] theorem toNat_notBorrowFlag (a b : Byte) : (notBorrowFlag a b).toNat = if a.toNat > b.toNat then 1 else 0 := by
  simp [notBorrowFlag]

@[simp] theorem toNat_shiftedOutRight (a : Byte) : (shiftedOutRight a).toNat = a.toNat % 2 :=
  (BitVec.toNat_and a 1).trans (Nat.and_one_is_mod _)

@[simp] theorem toNat_shiftedOutLeft (a : Byte) : (shiftedOutLeft a).toNat = a.toNat / 128 :=
  (BitVec.toNat_ushiftRight a 7).trans (Nat.shiftRight_eq_div_pow _ 7)

theorem toNat_shr_one_byte (a : Byte) : (a >>> 1).toNat = a.toNat / 2 :=
  (BitVec.toNat_ushiftRight a 1).trans (Nat.shiftRight_eq_div_pow _ 1)

theorem toNat_shl_one_byte (a : Byte) : (a <<< 1).toNat = a.toNat * 2 % 256 := by
  rw [BitVec.toNat_shiftLeft, Nat.shiftLeft_eq]

/-! ### With a flag -/

/-- The instruction leaves the number `result` in `V[x]` and, unless `V[x]` is VF, the number `flag` in VF; it goes on to
the next word and changes nothing else. -/
def LeavesFlagAndResult (s : State) (i : Instr) (x : Reg) (flag result : Nat) : Prop :=
  ∃ t, exec i s = .next t ∧ OnlyRegs s t [x, VF] ∧ t.pc = s.pc + 2 ∧ (t.reg x).toNat = result ∧
    (x ≠ VF → (t.reg VF).toNat = flag)

theorem LeavesFlagAndResult.of_exec {i : Instr} {s : State} {x : Reg} {f b : Byte} {flag result : Nat}
    (h : exec i s = .next (s.setFlagAndReg x f b).advance) (hf : f.toNat = flag) (hb : b.toNat = result) :
    LeavesFlagAndResult s i x flag result := by
  refine ⟨_, h, onlyRegs_setFlagAndReg s x f b, rfl, ?_, fun hx => ?_⟩
  · rw [State.reg_advance, State.reg_setFlagAndReg, if_pos rfl, hb]
  · rw [State.reg_advance, State.reg_setFlagAndReg, if_neg hx.symm, if_pos rfl, hf]

section
variable (s : State) (x y : Reg)

theorem exec_addReg_numbers : LeavesFlagAndResult s (.addReg x y) x
    (if (s.reg x).toNat + (s.reg y).toNat > 255 then 1 else 0) (((s.reg x).toNat + (s.reg y).toNat) % 256) :=
  .of_exec rfl (toNat_carryFlag _ _) (BitVec.toNat_add _ _)

theorem exec_sub_numbers : LeavesFlagAndResult s (.sub x y) x
    (if (s.reg x).toNat > (s.reg y).toNat then 1 else 0) (((s.reg x).toNat + 256 - (s.reg y).toNat) % 256) :=
  .of_exec rfl (toNat_notBorrowFlag _ _) (toNat_sub_byte _ _)

theorem exec_subn_numbers : LeavesFlagAndResult s (.subn x y) x
    (if (s.reg y).toNat > (s.reg x).toNat then 1 else 0) (((s.reg y).toNat + 256 - (s.reg x).toNat) % 256) :=
  .of_exec rfl (toNat_notBorrowFlag _ _) (toNat_sub_byte _ _)

theorem exec_shr_numbers : LeavesFlagAndResult s (.shr x y) x ((s.reg x).toNat % 2) ((s.reg x).toNat / 2) :=
  .of_exec rfl (toNat_shiftedOutRight _) (toNat_shr_one_byte _)

theorem exec_shl_numbers : LeavesFlagAndResult s (.shl x y) x ((s.reg x).toNat / 128) ((s.reg x).toNat * 2 % 256) :=
  .of_exec rfl (toNat_shiftedOutLeft _) (toNat_shl_one_byte _)

end

/-- Settles O26. -/
theorem addSetsCarry : Obligations.AddSetsCarry := ⟨decodesTo_of_getElem? 13 rfl, exec_addReg_numbers⟩

/-- Settles O27. -/
theorem subtractionsSetNotBorrow : Obligations.SubtractionsSetNotBorrow :=
  ⟨decodesTo_of_getElem? 14 rfl, decodesTo_of_getElem? 16 rfl, fun s x y =>
    ⟨exec_sub_numbers s x y, exec_subn_numbers s x y⟩⟩

/-- Settles O28. -/
theorem shiftsSetTheBitShiftedOut : Obligations.ShiftsSetTheBitShiftedOut :=
  ⟨decodesTo_of_getElem? 15 rfl, decodesTo_of_getElem? 17 rfl, fun s x y =>
    ⟨exec_shr_numbers s x y, exec_shl_numbers s x y⟩⟩

/-! ### VF as an operand (R152) -/

/-- Where VF is the destination, the result wins over the flag. -/
theorem LeavesFlagAndResult.result_in_VF {s : State} {i : Instr} {flag result n : Nat}
    (h : LeavesFlagAndResult s i VF flag result) (hn : result = n) :
    ∃ t, exec i s = .next t ∧ (t.reg VF).toNat = n :=
  let ⟨t, ht, _, _, hresult, _⟩ := h
  ⟨t, ht, hresult.trans hn⟩

/-- Where VF is not the destination, the flag is in VF, whichever operand VF was. -/
theorem LeavesFlagAndResult.flag_in_VF {s : State} {i : Instr} {x : Reg} {flag result : Nat}
    (h : LeavesFlagAndResult s i x flag result) (hx : x ≠ VF) :
    ∃ t, exec i s = .next t ∧ (t.reg VF).toNat = flag ∧ (t.reg x).toNat = result :=
  let ⟨t, ht, _, _, hresult, hflag⟩ := h
  ⟨t, ht, hflag hx, hresult⟩

/-- The difference of a byte and itself, in the numbers of R148 and R150. -/
theorem toNat_sub_self_mod (a : Byte) : (a.toNat + 256 - a.toNat) % 256 = 0 := by
  rw [Nat.add_sub_cancel_left]

/-- Settles O29: row by row of R152's table, the result where `x` is VF, the flag and the result where only `y` is. -/
theorem vfAsOperandOfTheFlagWriters : Obligations.VFAsOperandOfTheFlagWriters := by
  intro s x y hx _
  refine ⟨?_, ?_, ?_, ?_, ?_, ?_, fun z => ?_, ?_, ?_, ?_, fun z => ?_⟩
  · exact (exec_addReg_numbers s VF y).result_in_VF rfl
  · exact (exec_addReg_numbers s x VF).flag_in_VF hx
  · exact (exec_addReg_numbers s VF VF).result_in_VF (by rw [two_mul])
  · exact (exec_sub_numbers s VF y).result_in_VF rfl
  · exact (exec_sub_numbers s x VF).flag_in_VF hx
  · exact (exec_sub_numbers s VF VF).result_in_VF (toNat_sub_self_mod _)
  · exact (exec_shr_numbers s VF z).result_in_VF rfl
  · exact (exec_subn_numbers s VF y).result_in_VF rfl
  · exact (exec_subn_numbers s x VF).flag_in_VF hx
  · exact (exec_subn_numbers s VF VF).result_in_VF (toNat_sub_self_mod _)
  · exact (exec_shl_numbers s VF z).result_in_VF rfl

end Sys2Proof.Machine
end

section
/-! PROOFS. The display (42_display.md): CLS, what a draw does to the pixels and to VF, and a draw made twice. -/

namespace Sys2Proof.Machine

/-! ### Clearing -/

/-- Settles O33: a pixel is a bit of a display byte, and each of these is 0. -/
theorem clsClearsEveryPixel : Obligations.ClsClearsEveryPixel := by
  refine ⟨decodesTo_of_getElem? 0 rfl, fun s => ⟨_, rfl, rfl, fun b hb => ?_, fun r c => ?_⟩⟩
  · exact Vector.getElem_replicate hb
  · exact (congrArg (BitVec.getLsbD · (pixBit c)) (Vector.getElem_replicate (pixByte r c).isLt)).trans
      BitVec.getLsbD_zero

/-! ### Drawing -/

theorem collisionFlag_eq_zero_or_one (hit : Bool) : collisionFlag hit = 0 ∨ collisionFlag hit = 1 := by
  cases hit <;> decide

theorem collisionFlag_eq_one_iff (hit : Bool) : collisionFlag hit = 1 ↔ hit = true := by
  cases hit <;> decide

theorem State.length_memBlock (s : State) (a k : Nat) : (s.memBlock a k).length = k := by
  simp [State.memBlock]

/-- What the rows a Dxyn draws do to the display, in the terms of the claims: the sprite's pixels are inverted, and a
collision is reported exactly if one of them was on (R174). -/
theorem drawRows_memBlock (s : State) (x y : Reg) {n : Nat} {drawn : Display × Bool} (hn : n ≤ 32)
    (h : drawRows (s.memBlock s.I.toNat n) (s.reg y).toNat (s.reg x).toNat (s.disp, false) = drawn) :
    (∀ r c, drawn.1.pix r c = (s.disp.pix r c != spriteSets s x y n r c)) ∧
    (drawn.2 = true ↔ ∃ r c, s.disp.pix r c = true ∧ spriteSets s x y n r c = true) := by
  have hlen : (s.memBlock s.I.toNat n).length ≤ 32 := by rwa [s.length_memBlock]
  have hspec := drawRows_spec _ (s.reg y).toNat (s.reg x).toNat s.disp false hlen
  simpa only [h, rowsSet_memBlock, Bool.false_eq_true, false_or] using hspec

/-- Settles O34: out of range by the fault table, else by what the rows do to the display; the collision goes to VF. -/
theorem drawInvertsTheSpritesPixels : Obligations.DrawInvertsTheSpritesPixels := by
  refine ⟨decodesTo_of_getElem? 22 rfl, fun s x y n hn => ⟨fun hr => exec_fault (if_pos hr), fun hr => ?_⟩⟩
  obtain ⟨hpix, hhit⟩ := drawRows_memBlock s x y (hn.trans (by decide)) rfl
  refine ⟨_, exec_drw_ok x y n hr, rfl, fun z hz => ?_, fun _ => rfl, hpix, ?_, ?_⟩
  · exact (s.reg_setReg VF z _).trans (if_neg hz)
  · exact (s.reg_setReg_advance VF _).symm ▸ collisionFlag_eq_zero_or_one _
  · exact (Eq.congr_left (s.reg_setReg_advance VF _)).trans ((collisionFlag_eq_one_iff _).trans hhit)

/-! ### Drawing twice (R176) -/

/-- Which pixels a sprite sets depends on memory, I and the two coordinates only. -/
theorem spriteSets_congr {s s' : State} {x y x' y' : Reg} (n : Nat) (hmem : s'.mem = s.mem) (hI : s'.I = s.I)
    (hx : s'.reg x' = s.reg x) (hy : s'.reg y' = s.reg y) : spriteSets s' x' y' n = spriteSets s x y n := by
  funext r c
  simp only [spriteSets, hmem, hI, hx, hy]

theorem State.outOfRange_congr {s s' : State} (a k : Nat) (hcfg : s'.cfg = s.cfg) :
    s'.outOfRange a k = s.outOfRange a k := by
  rw [State.outOfRange, State.outOfRange, hcfg]

/-- Settles O35: both draws set the same pixels, so the second finds each of them inverted and inverts it back. -/
theorem drawingTwiceRestoresTheDisplay : Obligations.DrawingTwiceRestoresTheDisplay := by
  intro s s' t x y x' y' n hn hr ht hdisp hmem hI hcfg hx hy
  obtain ⟨t', ht', hframe, -, -, hpix, -, hVF⟩ := (drawInvertsTheSpritesPixels.2 s x y n hn).2 hr
  cases ht'.symm.trans ht
  have hIs : s'.I = s.I := by rw [hI, hframe]
  have hsets : spriteSets s' x' y' n = spriteSets s x y n :=
    spriteSets_congr n (by rw [hmem, hframe]) hIs hx hy
  have hr' : ¬ s'.outOfRange s'.I.toNat n := by
    rwa [hIs, State.outOfRange_congr _ _ (show s'.cfg = s.cfg by rw [hcfg, hframe])]
  obtain ⟨u, hu, -, -, -, hpix', -, hVF'⟩ := (drawInvertsTheSpritesPixels.2 s' x' y' n hn).2 hr'
  rw [hdisp, hsets] at hVF'
  simp only [hdisp, hsets] at hpix'
  have hsecond : u.reg VF = 1 ↔ ∃ r c, s.disp.pix r c = false ∧ spriteSets s x y n r c = true := by
    rw [hVF']
    refine exists_congr fun r => exists_congr fun c => and_congr_left fun hset => ?_
    rw [hpix, hset, Bool.bne_true, Bool.not_eq_true']
  refine ⟨hVF, u, hu, Display.ext_pix fun r c => ?_, hsecond, fun h0 ⟨r, c, hset⟩ => ?_⟩
  · rw [hpix', hpix, Bool.bne_assoc, bne_self_eq_false, Bool.bne_false]
  · have hoff : s.disp.pix r c ≠ true := fun hon =>
      absurd (h0.symm.trans (hVF.2 ⟨r, c, hon, hset⟩)) (by decide)
    exact hsecond.2 ⟨r, c, Bool.eq_false_iff.2 hoff, hset⟩

end Sys2Proof.Machine
end

section
/-! PROOFS. Keys and timers (43_keys_timers.md): the key skips, the key wait, the timer transfers, and what the end of a
step and TICK do to the timers. -/

namespace Sys2Proof.Machine

/-! ### Keys -/

/-- Settles O36: where the value names no key by the fault table, else both are skips on the key it names. -/
theorem keySkips : Obligations.KeySkips := by
  refine ⟨decodesTo_of_getElem? 23 rfl, decodesTo_of_getElem? 24 rfl, fun s x => ⟨fun h => ?_, fun h => ?_⟩⟩
  · exact ⟨exec_fault (if_pos h), exec_fault (if_pos h)⟩
  · rw [exec_skp_ok x h, exec_sknp_ok x h]
    exact ⟨congrArg Host.Outcome.next (s.skipIf_of_iff Iff.rfl),
      congrArg Host.Outcome.next (s.skipIf_of_iff (Bool.not_eq_true' _).to_iff)⟩

/-- Settles O37: the scan finds no key, or the highest one, which is below 16 and so is stored as its own number. -/
theorem keyWaitTakesTheHighestKey : Obligations.KeyWaitTakesTheHighestKey := by
  refine ⟨decodesTo_of_getElem? 26 rfl, fun s x => ⟨fun hnone => exec_ldVxK_wait x (State.pressedKey_eq_none hnone),
    fun k hk hpressed hhighest => ?_⟩⟩
  have hbyte : (BitVec.ofNat 8 k).toNat = k := (BitVec.toNat_ofNat k 8).trans (Nat.mod_eq_of_lt (by omega))
  have hreg (z : Reg) := s.set_getElem x z (BitVec.ofNat 8 k)
  exact ⟨_, exec_ldVxK_key x (State.pressedKey_eq_some hk hpressed hhighest), rfl,
    (congrArg BitVec.toNat ((hreg x).trans (if_pos rfl))).trans hbyte, fun z hz => (hreg z).trans (if_neg hz)⟩

/-! ### Timers -/

/-- Settles O38: a load of DT, and an update of each timer. -/
theorem timerTransfers : Obligations.TimerTransfers :=
  ⟨decodesTo_of_getElem? 25 rfl, decodesTo_of_getElem? 27 rfl, decodesTo_of_getElem? 28 rfl, fun s _ =>
    ⟨exec_load (· = s.dt) rfl rfl, rfl, rfl⟩⟩

section
variable {s : State}

/-- TICK under tick60 (R207). -/
theorem opTick_tick60 (h : s.cfg.timerPolicy = .tick60) : opTick s = .next s.countTimers := by rw [opTick, h]

/-- TICK under per_step (R207). -/
theorem opTick_perStep (h : s.cfg.timerPolicy = .perStep) : opTick s = .refused .tickUnderPerStep := by rw [opTick, h]

/-- The timers a step leaves under per_step (R206). -/
theorem State.endStep_timers_perStep (h : s.cfg.timerPolicy = .perStep) :
    s.endStep.dt = countDown s.dt ∧ s.endStep.st = countDown s.st := by
  rw [State.endStep_dt, State.endStep_st, h]; exact ⟨rfl, rfl⟩

/-- The timers a step leaves under tick60 (R206). -/
theorem State.endStep_timers_tick60 (h : s.cfg.timerPolicy = .tick60) :
    s.endStep.dt = s.dt ∧ s.endStep.st = s.st := by
  rw [State.endStep_dt, State.endStep_st, h]; exact ⟨rfl, rfl⟩

/-- The timers a step leaves under per_step, as numbers (R206). -/
theorem State.toNat_endStep_timers_perStep (h : s.cfg.timerPolicy = .perStep) :
    s.endStep.dt.toNat = s.dt.toNat - 1 ∧ s.endStep.st.toNat = s.st.toNat - 1 := by
  obtain ⟨hdt, hst⟩ := State.endStep_timers_perStep h
  rw [hdt, hst, toNat_countDown, toNat_countDown]
  exact ⟨rfl, rfl⟩

/-- A step that runs an Fx07 leaves DT, as at its start, in `V[x]` (R194). -/
theorem step_ldVxDT {x : Reg} (hf : s.fetchInstr = .ok (.ldVxDT x)) : ∃ t, step s = .next t ∧ t.reg x = s.dt :=
  ⟨_, step_of_instr hf, (State.reg_endStep _ x).trans (s.beginStep.reg_setReg_advance x s.dt)⟩

end

/-- Settles O50: TICK is the decrement of both timers under tick60, and refused under per_step. -/
theorem tickCountsTimersUnderTick60 : Obligations.TickCountsTimersUnderTick60 := fun s =>
  ⟨fun h => ⟨s.countTimers, congrArg withoutReply (opTick_tick60 h), rfl, toNat_countDown s.dt, toNat_countDown s.st⟩,
    fun h => congrArg withoutReply (opTick_perStep h)⟩

/-- Inversion of a step, in the terms of the claims: its instruction ended in a next state without a fault, or the fault
path did; and then the end of the step, under the same parameters. -/
theorem step_next_of_stepFault {s t : State} (ht : step s = .next t) : ∃ u, t = u.endStep ∧ u.cfg = s.cfg ∧
    ((∃ i, stepFault s = none ∧ decodeWord s.wordAtPc = .ok i ∧ exec i s.beginStep = .next u) ∨
      ∃ c, stepFault s = some c ∧ u = s.beginStep.recordFault c) := by
  cases hf : stepFault s with
  | some c =>
    cases (step_of_stepFault hf).symm.trans ht
    exact ⟨_, rfl, rfl, .inr ⟨c, rfl, rfl⟩⟩
  | none =>
    obtain ⟨i, u, -, hd, -, hu, rfl⟩ := step_of_no_stepFault hf ht
    obtain ⟨-, hcfg, -⟩ := exec_frame hu
    exact ⟨u, rfl, hcfg, .inl ⟨i, rfl, hd, hu⟩⟩

/-- Settles O8: whichever way a step goes, it ends in `endStep`, which counts the timers by the policy. -/
theorem everyStepCountsTheTimersLast : Obligations.EveryStepCountsTheTimersLast := by
  intro s t ht
  obtain ⟨u, rfl, hcfg, hu⟩ := step_next_of_stepFault ht
  exact ⟨u, hu, u.endStep_eq, fun hp => State.endStep_timers_perStep (hcfg ▸ hp),
    fun hp => State.endStep_timers_tick60 (hcfg ▸ hp)⟩

/-- Settles O39: the end of the step counts the timer just written, and the next step finds it so. -/
theorem timerWrittenInAStepIsDecrementedInIt : Obligations.TimerWrittenInAStepIsDecrementedInIt := by
  intro s x hp hfetch
  have runs {i : Instr} (hd : decodeWord s.wordAtPc = .ok i) : step s = finish (exec i s.beginStep) :=
    step_of_instr (State.fetchInstr_ok.2 ⟨hfetch, hd⟩)
  refine ⟨fun hd => ?_, fun hd => ?_⟩
  · obtain ⟨hdt, hst⟩ := State.toNat_endStep_timers_perStep (s := ({ s.beginStep with dt := s.reg x }).advance) hp
    refine ⟨_, runs hd, hdt, hst, State.endStep_pc _, fun z htf htd => ?_⟩
    obtain ⟨u, hu, hreg⟩ := step_ldVxDT (State.fetchInstr_ok.2 ⟨htf, htd⟩)
    exact ⟨u, hu, (congrArg BitVec.toNat hreg).trans hdt⟩
  · obtain ⟨hdt, hst⟩ := State.toNat_endStep_timers_perStep (s := ({ s.beginStep with st := s.reg x }).advance) hp
    exact ⟨_, runs hd, hst, hdt, State.endStep_pc _⟩

end Sys2Proof.Machine
end

section
/-! PROOFS. Index register and memory (44_index_memory.md): the three writes of I, the digits Fx33 stores, and the register
blocks of Fx55 and Fx65. -/

namespace Sys2Proof.Machine

/-! ### The index register -/

@[simp] theorem toNat_indexFlag (i : Word) (b : Byte) :
    (indexFlag i b).toNat = if i.toNat + b.toNat > 0xFFF then 1 else 0 := by
  simp [indexFlag]

theorem toNat_add_zextByte (i : Word) (b : Byte) : (i + zextByte b).toNat = (i.toNat + b.toNat) % 65536 := by
  rw [BitVec.toNat_add, toNat_zextByte]

/-- A glyph address does not wrap: it is at most 1275 (R223). -/
theorem toNat_glyphAddress (d : Byte) : (glyphAddress d).toNat = 5 * d.toNat :=
  have hd := d.isLt
  (BitVec.toNat_ofNat _ 16).trans (Nat.mod_eq_of_lt (by omega))

/-- Settles O40: the values of I as numbers; Fx1E writes VF as a register beside it. -/
theorem indexRegisterWrites : Obligations.IndexRegisterWrites := by
  refine ⟨decodesTo_of_getElem? 19 rfl, decodesTo_of_getElem? 29 rfl, decodesTo_of_getElem? 30 rfl, fun s x nnn =>
    ⟨⟨_, rfl, rfl, toNat_zextAddr nnn⟩, ?_, ⟨_, rfl, rfl, toNat_glyphAddress (s.reg x)⟩⟩⟩
  have hreg (z : Reg) := s.reg_setReg VF z (indexFlag s.I (s.reg x))
  exact ⟨_, rfl, rfl, toNat_add_zextByte s.I (s.reg x),
    (congrArg BitVec.toNat ((hreg VF).trans (if_pos rfl))).trans (toNat_indexFlag s.I (s.reg x)),
    fun z hz => (hreg z).trans (if_neg hz)⟩

/-! ### The digits of a byte (R224) -/

/-- Each digit fits its byte. -/
theorem toNat_bcdDigits (b : Byte) : (bcdDigits b)[0].toNat = b.toNat / 100 ∧
    (bcdDigits b)[1].toNat = b.toNat / 10 % 10 ∧ (bcdDigits b)[2].toNat = b.toNat % 10 := by
  have hb := b.isLt
  have toNat_digit {n : Nat} (hn : n < 256) : (BitVec.ofNat 8 n).toNat = n :=
    (BitVec.toNat_ofNat n 8).trans (Nat.mod_eq_of_lt hn)
  exact ⟨toNat_digit (by omega), toNat_digit (by omega), toNat_digit (by omega)⟩

/-- Settles O41: out of range by the fault table, else each digit reads back from the block write. -/
theorem bcdStoresThreeDigits : Obligations.BcdStoresThreeDigits := by
  refine ⟨decodesTo_of_getElem? 31 rfl, fun s x => ⟨fun hr => exec_fault (if_pos hr), fun hr => ?_⟩⟩
  have hread (k : Nat) (hk : k < 3) := congrArg BitVec.toNat
    (s.mem.read_writeBlock_at s.I.toNat (bcdDigits (s.reg x)) k hk (by rw [length_bcdDigits]; decide))
  obtain ⟨hundreds, tens, ones⟩ := toNat_bcdDigits (s.reg x)
  exact ⟨_, exec_ldB_ok x hr, rfl, (hread 0 (by decide)).trans hundreds, (hread 1 (by decide)).trans tens,
    (hread 2 (by decide)).trans ones, s.mem.read_writeBlock_other s.I.toNat (bcdDigits (s.reg x))⟩

/-! ### Register blocks (R225, R226) -/

theorem State.toNat_indexPast (s : State) (x : Reg) : (s.indexPast x).toNat = (s.I.toNat + x.val + 1) % 65536 :=
  BitVec.toNat_ofNat _ 16

/-- Settles O42: out of range by the fault table, else by the block write of the registers. -/
theorem storeBlockStoresV0ToVx : Obligations.StoreBlockStoresV0ToVx := by
  refine ⟨decodesTo_of_getElem? 32 rfl, fun s x => ⟨fun hr => exec_fault (if_pos hr), fun hr => ?_⟩⟩
  refine ⟨_, exec_ldMemVx_ok x hr, rfl, s.toNat_indexPast x, fun i hi => s.read_storedRegBlock hi s.I.toNat,
    fun a ha => s.mem.read_writeBlock_other s.I.toNat (s.regBlock x) a fun k hk => ha k ?_⟩
  rw [State.length_regBlock] at hk
  exact Nat.le_of_lt_succ hk

/-- Settles O43: out of range by the fault table, else register by register of the load. -/
theorem loadBlockLoadsV0ToVx : Obligations.LoadBlockLoadsV0ToVx := by
  refine ⟨decodesTo_of_getElem? 33 rfl, fun s x => ⟨fun hr => exec_fault (if_pos hr), fun hr => ?_⟩⟩
  have hreg (i : Reg) := s.loadRegs_getElem x i s.I.toNat
  exact ⟨_, exec_ldVxMem_ok x hr, rfl, s.toNat_indexPast x, fun i hi => (hreg i).trans (if_pos hi),
    fun i hi => (hreg i).trans (if_neg hi.not_ge), fun _ => rfl⟩

/-- Settles O44: the load reads, register by register, what the store has put there. -/
theorem storedBlockLoadsBack : Obligations.StoredBlockLoadsBack := by
  intro s t u x hr ht hmem hI hcfg
  obtain ⟨t', ht', -, hIt, hstored, -⟩ := (storeBlockStoresV0ToVx.2 s x).2 hr
  cases ht'.symm.trans ht
  have hru : ¬ u.outOfRange u.I.toNat (x.val + 1) := by rwa [hI, State.outOfRange_congr _ _ hcfg]
  obtain ⟨r, hrun, -, hIr, hloaded, -⟩ := (loadBlockLoadsV0ToVx.2 u x).2 hru
  rw [hI] at hIr hloaded
  refine ⟨r, hrun, fun i hi => ?_, BitVec.eq_of_toNat_eq (hIr.trans hIt.symm)⟩
  rw [hloaded i hi, hmem, hstored i hi]

end Sys2Proof.Machine
end

section
/-! PROOFS. Faults (60_exceptions.md): what a faulting step leaves, that its fault repeats, and that no run stops. -/

namespace Sys2Proof.Machine

/-! ### What a faulting step leaves (R252, R253) -/

/-- `FaultPath s c t`: taking the fault `c` any positive number of times leads from `s` to `t`: only the timers, `key_wait`,
`fault` and the model's own `rndIn` and `draws` may differ, and `fault` holds the first code. -/
structure FaultPath (s : State) (c : FaultCode) (t : State) : Prop where
  frame : t = { s with fault := t.fault, keyWait := false, dt := t.dt, st := t.st, rndIn := t.rndIn, draws := t.draws }
  firstCode : t.fault = s.faultAfter c

/-- The code left in `fault`, as a number (R251, R252). -/
theorem State.toNat_faultAfter (s : State) (c : FaultCode) :
    (s.faultAfter c).toNat = if s.fault = 0 then faultNumber c else s.fault.toNat := by
  rw [State.faultAfter, apply_ite BitVec.toNat, FaultCode.toNat_code]

/-- The fault path of a step, up to its end. -/
theorem faultPath_endStep (s : State) (c : FaultCode) : FaultPath s c (s.beginStep.recordFault c).endStep where
  frame := by rw [State.endStep_fault]; exact State.endStep_eq _
  firstCode := State.endStep_fault _

/-- A step that raises a fault takes the fault path. -/
theorem step_faultPath {s : State} {c : FaultCode} (h : stepFault s = some c) : ∃ t, step s = .next t ∧ FaultPath s c t :=
  ⟨_, step_of_stepFault h, faultPath_endStep s c⟩

/-- Settles O9: the end of the fault path, with the timers as every step's end leaves them. -/
theorem faultingStepChangesOnlyTimersAndStatus : Obligations.FaultingStepChangesOnlyTimersAndStatus := by
  intro s c h
  have hpath := faultPath_endStep s c
  exact ⟨_, step_of_stepFault h, hpath.frame, hpath.firstCode ▸ s.toNat_faultAfter c, State.toNat_endStep_dt _,
    State.toNat_endStep_st _⟩

/-! ### A fault repeats (R254) -/

/-- Which fault a step raises depends on V, I, PC, SP, memory and the parameters only (R251). -/
theorem stepFault_congr {s t : State} (hv : t.v = s.v) (hI : t.I = s.I) (hpc : t.pc = s.pc) (hsp : t.sp = s.sp)
    (hmem : t.mem = s.mem) (hcfg : t.cfg = s.cfg) : stepFault t = stepFault s := by
  cases s; cases t
  cases hv; cases hI; cases hpc; cases hsp; cases hmem; cases hcfg
  rfl

namespace FaultPath
variable {s t u : State} {c : FaultCode}

theorem pc_eq (h : FaultPath s c t) : t.pc = s.pc := by rw [h.frame]

/-- The fault path writes nothing that decides which fault a step raises. -/
theorem stepFault_eq (h : FaultPath s c t) : stepFault t = stepFault s := by
  rw [h.frame]
  exact stepFault_congr rfl rfl rfl rfl rfl rfl

/-- A second fault finds the first code recorded and keeps it (R252). -/
theorem trans (h : FaultPath s c t) (h' : FaultPath t c u) : FaultPath s c u where
  frame := by
    have hu := h'.frame
    rwa [h.frame] at hu
  firstCode := by
    have hrecorded : t.fault ≠ 0 := h.firstCode ▸ s.faultAfter_ne_zero c
    rw [h'.firstCode, State.faultAfter, if_neg hrecorded, h.firstCode]

end FaultPath

/-- One and more steps from a state whose step raises a fault: each takes the same fault path. -/
theorem run_faultPath {s : State} {c : FaultCode} (h : stepFault s = some c) (n : Nat) :
    ∃ t, Host.Core.run core (n + 1) s = .next t ∧ FaultPath s c t := by
  obtain ⟨t₁, ht₁, hp₁⟩ := step_faultPath h
  obtain ⟨t, ht, hp⟩ := run_induction (fun _ t => FaultPath s c t) (fun _ t hp =>
    have ⟨u, hu, hq⟩ := step_faultPath (hp.stepFault_eq.trans h)
    ⟨u, hu, hp.trans hq⟩) n 0 t₁ hp₁
  exact ⟨t, (run_succ_of_next n ht₁).trans ht, hp⟩

/-- A TICK that answers has counted the timers (R207). -/
theorem opTick_next {s t : State} (h : opTick s = .next t) : t = s.countTimers := by
  cases hp : s.cfg.timerPolicy with
  | tick60 => cases (opTick_tick60 hp).symm.trans h; rfl
  | perStep => cases (opTick_perStep hp).symm.trans h

/-- No operation of the host but RESET and LOAD ends a fault or moves PC off the faulting word. -/
theorem perform_keeps_stepFault {op : HostOp} {s t : State} {reply : HostReply} {c : FaultCode}
    (h : stepFault s = some c) (hreset : op ≠ .reset) (hload : ∀ image, op ≠ .load image)
    (ht : perform op s = .next (t, reply)) : stepFault t = some c ∧ t.pc = s.pc := by
  cases op with
  | reset => exact absurd rfl hreset
  | load image => exact absurd rfl (hload image)
  | step rnd =>
    have hr : stepFault { s with rndIn := rnd :: s.rndIn } = some c := (stepFault_congr rfl rfl rfl rfl rfl rfl).trans h
    obtain ⟨u, hu, hp⟩ := step_faultPath hr
    cases hu.symm.trans (withoutReply_eq_next ht)
    exact ⟨hp.stepFault_eq.trans hr, hp.pc_eq⟩
  | tick =>
    cases opTick_next (withoutReply_eq_next ht)
    exact ⟨(stepFault_congr rfl rfl rfl rfl rfl rfl).trans h, rfl⟩
  | setKeys | clearDirty | readDisplay | readStatus =>
    cases ht
    exact ⟨(stepFault_congr rfl rfl rfl rfl rfl rfl).trans h, rfl⟩

/-- Settles O11: a run of faults is one fault path, at whose end the fault is raised again. -/
theorem faultRepeatsUntilResetOrLoad : Obligations.FaultRepeatsUntilResetOrLoad := by
  refine fun s c h => ⟨fun n => ?_, fun _ _ _ => perform_keeps_stepFault h⟩
  obtain ⟨t, ht, hp⟩ := run_faultPath h n
  exact ⟨t, ht, hp.stepFault_eq.trans h, hp.frame, hp.firstCode⟩

/-! ### No run stops (R255) -/

/-- A step stops in no state where SP counts at most 16 entries: its instruction does not, and the fault path never does. -/
theorem step_safe {s : State} (h : s.sp.toNat ≤ 16) : Safe (step s) := by
  cases hf : s.fetchInstr with
  | ok i =>
    obtain ⟨u, hu⟩ := exec_total (s := s.beginStep) i h
    exact ⟨u.endStep, (step_of_instr hf).trans (congrArg finish hu)⟩
  | error c => exact ⟨_, step_of_fault hf⟩

/-- Settles O55: the invariant bounds SP, so a step ends in a next state, and every step keeps the invariant. -/
theorem noRunStops : Obligations.NoRunStops := by
  refine fun s n h => run_induction (fun _ s => s.Inv) (fun _ s hs => ?_) n 0 s h
  obtain ⟨t, ht⟩ := step_safe hs.spInRange
  exact ⟨t, ht, step_inv hs ht⟩

end Sys2Proof.Machine
end

section
/-! PROOFS. Reset and the parked state (70_reset_and_hazards.md): what RESET and LOAD leave, power-on, and that a jump to
itself changes only the timers and `key_wait`. -/

namespace Sys2Proof.Machine

/-! ### RESET and power-on (R280, R281) -/

/-- A block of at most 4096 bytes, written where it does not reach past 0xFFF, reads back at its own addresses. -/
theorem Memory.read_writeBlock_within (m : Memory) {a : Nat} {bs : List Byte} (hfit : a + bs.length ≤ 4096) {k : Nat}
    (hk : k < bs.length) : (m.writeBlock a bs).read (a + k) = bs[k] := by
  have hread := m.read_writeBlock_at a bs k hk (by omega)
  rwa [busAddress, Nat.mod_eq_of_lt (by omega)] at hread

/-- Such a block leaves every address before it and after it alone. -/
theorem Memory.read_writeBlock_outside (m : Memory) {a : Nat} {bs : List Byte} (hfit : a + bs.length ≤ 4096) {a' : Nat}
    (ha : a' < a ∨ a + bs.length ≤ a') : (m.writeBlock a bs).read a' = m.read a' :=
  m.read_writeBlock_other a bs a' fun k hk => by rw [busAddress, Nat.mod_eq_of_lt (by omega)]; omega

/-- FONT lies at 0x000 to 0x04F of the memory RESET leaves (R51). -/
theorem read_opReset_font (s : State) {a : Nat} (h : a < 80) : (opReset s).mem.read a = s.cfg.font[a] := by
  have hread := Memory.read_writeBlock_within [] (a := 0) (bs := s.cfg.font.toList) (by simp) (k := a) (by simpa)
  rwa [Nat.zero_add, Vector.getElem_toList] at hread

/-- Past FONT the memory RESET leaves is 0 (R51). -/
theorem read_opReset_past_font (s : State) {a : Nat} (h : 80 ≤ a) : (opReset s).mem.read a = 0 :=
  (Memory.read_writeBlock_outside [] (by simp) (.inr (by simpa))).trans (Memory.unlisted_of_ge a h)

/-- RESET under this hardware's parameters makes the reset state. -/
theorem opReset_of_hardware {s : State} (h : s.cfg = hardware) :
    opReset s = { State.reset with rndIn := s.rndIn, draws := s.draws } := by
  rw [opReset, h, resetUnder_hardware]

/-- Settles O46: the fields of `State.reset`, and its memory with FONT written over it. -/
theorem resetValues : Obligations.ResetValues := fun s =>
  ⟨opReset s, rfl, fun _ => Vector.getElem_replicate _, rfl, rfl, rfl,
    fun _ hj => (Vector.getElem?_replicate ..).trans (if_pos hj), rfl, rfl, fun _ => read_opReset_font s,
    fun _ => read_opReset_past_font s, fun _ _ => Vector.getElem_replicate _, fun _ _ => BitVec.getLsbD_zero, rfl, rfl, rfl⟩

/-- Settles O47: the reset state has this hardware's parameters, so RESET makes it again. -/
theorem powerOnIsTheResetState : Obligations.PowerOnIsTheResetState :=
  ⟨rfl, (opReset_of_hardware (s := State.reset) rfl).symm, fun _ => opReset_of_hardware⟩

/-! ### LOAD (R282) -/

theorem opLoad_of_too_large {image : List Byte} (h : 3584 < image.length) (s : State) :
    opLoad image s = (s, .programTooLarge) := if_pos h

theorem opLoad_of_fits {image : List Byte} (h : image.length ≤ 3584) (s : State) :
    opLoad image s = ({ opReset s with mem := (opReset s).mem.writeBlock 0x200 image }, .ok) := if_neg (Nat.not_lt.2 h)

/-- Settles O48: an image that fits ends at or below 0xFFF, so it is a block of the reset memory that does not wrap. -/
theorem loadChecksThenResetsThenCopies : Obligations.LoadChecksThenResetsThenCopies := by
  refine fun s image => ⟨fun hlarge => ?_, fun hfits => ?_⟩
  · rw [perform, opLoad_of_too_large hlarge]
  · have hfit : 0x200 + image.length ≤ 4096 := by omega
    rw [perform, opLoad_of_fits hfits]
    exact ⟨_, rfl, rfl, fun _ => Memory.read_writeBlock_within _ hfit, fun _ => Memory.read_writeBlock_outside _ hfit⟩

/-! ### The parked state (R298) -/

/-- `ParkedFor s n t`: `n` parked steps lead from `s` to `t`: only the timers, `key_wait` and the model's own `rndIn` and
`draws` may differ, and under per_step the timers have counted down `n` times. -/
structure ParkedFor (s : State) (n : Nat) (t : State) : Prop where
  frame : t = { s with dt := t.dt, st := t.st, keyWait := t.keyWait, rndIn := t.rndIn, draws := t.draws }
  timers : s.cfg.timerPolicy = .perStep → t.dt.toNat = s.dt.toNat - n ∧ t.st.toNat = s.st.toNat - n

namespace ParkedFor
variable {s t u : State} {n m : Nat}

/-- What decides that a machine is parked is not among what parked steps change. -/
theorem parked (h : ParkedFor s n t) (hs : s.parked) : t.parked := by
  rw [h.frame]
  exact hs

theorem trans (h : ParkedFor s n t) (h' : ParkedFor t m u) : ParkedFor s (n + m) u where
  frame := by
    have hu := h'.frame
    rwa [h.frame] at hu
  timers hp := by
    obtain ⟨hdt, hst⟩ := h.timers hp
    obtain ⟨hdt', hst'⟩ := h'.timers (by rw [h.frame]; exact hp)
    omega

end ParkedFor

/-- A step of a parked machine jumps to where it is, so only its beginning and its end change anything (R112). -/
theorem step_parked {s : State} (h : s.parked) : ∃ t, step s = .next t ∧ ParkedFor s 1 t := by
  obtain ⟨hfetch, nnn, hd, hself⟩ := h
  have hpc : zextAddr nnn = s.pc := BitVec.eq_of_toNat_eq ((toNat_zextAddr nnn).trans hself)
  have hjump : exec (.jp nnn) s.beginStep = .next s.beginStep := by
    show Host.Outcome.next { s.beginStep with pc := zextAddr nnn } = .next s.beginStep
    rw [hpc]
    rfl
  refine ⟨s.beginStep.endStep, ?_, ?_, fun hp => State.toNat_endStep_timers_perStep (s := s.beginStep) hp⟩
  · rw [step_of_instr (State.fetchInstr_ok.2 ⟨hfetch, hd⟩), hjump, finish_next]
  · rw [State.endStep_keyWait]
    exact s.beginStep.endStep_eq

/-- Settles O56: by induction on the steps, each of which finds the machine still parked and jumps to where it is. -/
theorem parkedMachineChangesOnlyTimers : Obligations.ParkedMachineChangesOnlyTimers := by
  intro s n hs
  obtain ⟨t, ht, hp⟩ := run_induction (ParkedFor s) (fun _ _ hp =>
    have ⟨u, hu, hq⟩ := step_parked (hp.parked hs)
    ⟨u, hu, hp.trans hq⟩) n 0 s ⟨rfl, fun _ => ⟨rfl, rfl⟩⟩
  rw [Nat.zero_add] at hp
  exact ⟨t, ht, hp.parked hs, hp.frame, hp.timers⟩

end Sys2Proof.Machine
end
